-- ==== Sys2Proof/Word.lean ====
section
/-! DEFINITION. The word types of C64N (spec/00_scope.md R8): nothing in C64N is signed, and every
value the hardware shifts, masks or xors is one of these three widths. -/

namespace Sys2Proof

/-- A 64-bit word: the CRC state, a table entry, a command word, a response value (R8). -/
abbrev Word := BitVec 64

/-- One payload or digest byte (R8). -/
abbrev Byte := BitVec 8

/-- One 128-bit accumulator lane, and the width of one carryless product (R8, R101). -/
abbrev Lane := BitVec 128

end Sys2Proof
end

