-- ==== Sys2Proof/Syntax.lean ====
section
/-! DEFINITION. The twelve commands of C64N (spec/30_encoding.md R64), one constructor per row of
spec/opcode_table.json, their formats (R61), the frame extent (R62) and the fault causes (R150). -/

namespace Sys2Proof

/-- A command with its operands, as taken from the command port (R61, R63). The payload of an FL
command is not part of the command word: it arrives on the data port (R60). -/
inductive Instr where
  /-- `NOP`, OPC 0x00 (R130). -/
  | nop
  /-- `TGEN`, OPC 0x01 (R82). -/
  | tgen
  /-- `PROBE`, OPC 0x02 (R120). -/
  | probe
  /-- `SETCAP V`, OPC 0x03, V = CW[48] (R121). -/
  | setcap (v : Bool)
  /-- `RESET`, OPC 0x10 (R131). -/
  | reset
  /-- `UPDATE`, OPC 0x11, LEN = CW[47:0] payload bytes follow (R132). -/
  | update (len : Nat)
  /-- `SUM`, OPC 0x12 (R133). -/
  | sum
  /-- `CHECKSUM`, OPC 0x13, LEN = CW[47:0] payload bytes follow (R134). -/
  | checksum (len : Nat)
  /-- `SIZE`, OPC 0x14 (R135). -/
  | size
  /-- `BLKSIZE`, OPC 0x15 (R136). -/
  | blksize
  /-- `RDSTATE`, OPC 0x16 (R137). -/
  | rdstate
  /-- `WRSTATE OPW`, OPC 0x17, one operand word follows on the command port (R138). -/
  | wrstate (opw : Word)
deriving DecidableEq, Repr

/-- The four formats of R61, which differ in the fields that may be non-zero and in what follows. -/
inductive Format where
  /-- ARG = 0, LEN = 0, nothing follows. -/
  | F0
  /-- ARG[7:1] = 0, ARG[0] = V, LEN = 0, nothing follows. -/
  | FA
  /-- ARG = 0, LEN payload bytes follow on the data port. -/
  | FL
  /-- ARG = 0, LEN = 0, one operand word follows on the command port. -/
  | FW
deriving DecidableEq, Repr

/-- What a frame claims from the ports: `words` command-port words (the command word included) and
`bytes` data-port bytes (R62). -/
structure Extent where
  words : Nat
  bytes : Nat
deriving DecidableEq, Repr

/-- A frame that is its command word alone. -/
def Extent.word : Extent := ⟨1, 0⟩

/-- A command word and LEN payload bytes. -/
def Extent.payload (len : Nat) : Extent := ⟨1, len⟩

/-- A command word and one operand word. -/
def Extent.operand : Extent := ⟨2, 0⟩

/-- The frame extent of a command (R62, R66). -/
def Instr.extent : Instr → Extent
  | .nop => .word
  | .tgen => .word
  | .probe => .word
  | .setcap _ => .word
  | .reset => .word
  | .update len => .payload len
  | .sum => .word
  | .checksum len => .payload len
  | .size => .word
  | .blksize => .word
  | .rdstate => .word
  | .wrstate _ => .operand

/-- The causes of the one exception `Ill(cause)` (spec/60_exceptions.md R150). -/
inductive IllCause where
  /-- `ILL_OPC`, code 1: OPC is not an assigned value. -/
  | opc
  /-- `ILL_FIELD`, code 2: a field the format requires to be zero is not zero. -/
  | field
  /-- `ILL_PRIV`, code 3: SETCAP with TESTEN = 0. -/
  | priv
deriving DecidableEq, Repr

end Sys2Proof
end

