-- ==== Sys2Proof/WellFormed.lean ====
section
/-! DEFINITION. Which commands an encoding exists for: LEN is an unsigned 48-bit number
(spec/30_encoding.md R61, R63; R8: `LENW = 48`). The other operands are bounded by their types. -/

namespace Sys2Proof

/-- Every operand fits its field (R61): an input of 2^48 bytes or more is not encodable (R63). -/
def Instr.wellFormed : Instr → Bool
  | .nop => true
  | .tgen => true
  | .probe => true
  | .setcap _ => true
  | .reset => true
  | .update len => decide (len < 2 ^ 48)
  | .sum => true
  | .checksum len => decide (len < 2 ^ 48)
  | .size => true
  | .blksize => true
  | .rdstate => true
  | .wrstate _ => true

end Sys2Proof
end

