-- ==== Sys2Proof/Decode.lean ====
section
/-! DEFINITION. The command word (spec/30_encoding.md R61 to R66): its fields, the frame extent, the
decoder, the encoder, and the opcode map as rows with match and mask. Words have no byte order: the
command port is 64 bits wide (R63). -/

namespace Sys2Proof

/-- `OPC = CW[63:56]` (R61). -/
def opcField (cw : Word) : BitVec 8 := cw.extractLsb' 56 8

/-- `ARG = CW[55:48]` (R61). -/
def argField (cw : Word) : BitVec 8 := cw.extractLsb' 48 8

/-- `ARG[7:1] = CW[55:49]`, the part of ARG that format FA requires to be zero (R61). -/
def argHighField (cw : Word) : BitVec 7 := cw.extractLsb' 49 7

/-- `LEN = CW[47:0]` (R61). -/
def lenField (cw : Word) : BitVec 48 := cw.extractLsb' 0 48

/-- `V = CW[48]` (R61, R63). -/
def vField (cw : Word) : Bool := cw.getLsbD 48

/-- The extent of the frame a command word starts, decided by OPC alone, before any legality check
and for reserved opcodes too (R62). -/
def frameExtent (cw : Word) : Extent :=
  match opcField cw with
  | 0x11#8 => .payload (lenField cw).toNat
  | 0x13#8 => .payload (lenField cw).toNat
  | 0x17#8 => .operand
  | _ => .word

/-- Why the words on the command port decode to no command. -/
inductive DecodeError where
  /-- OPC is not one of the twelve assigned values: cause 1 (R65). -/
  | illOpc
  /-- OPC is assigned, a must-be-zero field of its format is not zero: cause 2 (R65). -/
  | illField
  /-- No command word is there, or a WRSTATE word without its operand word: more words are needed
  before the frame can be decoded (R62). -/
  | incomplete
deriving DecidableEq, Repr

/-- Format F0 (R61). -/
def decodeF0 (cw : Word) (i : Instr) : Except DecodeError Instr :=
  if argField cw = 0 ∧ lenField cw = 0 then .ok i else .error .illField

/-- Format FA (R61): only SETCAP. -/
def decodeFA (cw : Word) : Except DecodeError Instr :=
  if argHighField cw = 0 ∧ lenField cw = 0 then .ok (.setcap (vField cw)) else .error .illField

/-- Format FL (R61): LEN may be any value. -/
def decodeFL (cw : Word) (mk : Nat → Instr) : Except DecodeError Instr :=
  if argField cw = 0 then .ok (mk (lenField cw).toNat) else .error .illField

/-- Format FW (R61): the operand word is part of the frame even when the frame is illegal (R62). -/
def decodeFW (cw : Word) : List Word → Except DecodeError Instr
  | [] => .error .incomplete
  | opw :: _ => if argField cw = 0 ∧ lenField cw = 0 then .ok (.wrstate opw) else .error .illField

/-- The decoder: the command that the words at the head of the command port stand for, or why there
is none. OPC is checked first (cause 1), then the format's fields (cause 2), in the order of R65; the
third check of R65 (SETCAP with TESTEN = 0) reads the state and is SETCAP's own (R121). -/
def decode : List Word → Except DecodeError Instr
  | [] => .error .incomplete
  | cw :: rest =>
    match opcField cw with
    | 0x00#8 => decodeF0 cw .nop
    | 0x01#8 => decodeF0 cw .tgen
    | 0x02#8 => decodeF0 cw .probe
    | 0x03#8 => decodeFA cw
    | 0x10#8 => decodeF0 cw .reset
    | 0x11#8 => decodeFL cw .update
    | 0x12#8 => decodeF0 cw .sum
    | 0x13#8 => decodeFL cw .checksum
    | 0x14#8 => decodeF0 cw .size
    | 0x15#8 => decodeF0 cw .blksize
    | 0x16#8 => decodeF0 cw .rdstate
    | 0x17#8 => decodeFW cw rest
    | _ => .error .illOpc

/-- A command word from its three fields, most significant first (R61). -/
def commandWord (opc arg : BitVec 8) (len : Nat) : Word := opc ++ (arg ++ BitVec.ofNat 48 len)

/-- The encoder: the command-port words of a command (R61, R64). -/
def encode : Instr → List Word
  | .nop => [commandWord 0x00 0 0]
  | .tgen => [commandWord 0x01 0 0]
  | .probe => [commandWord 0x02 0 0]
  | .setcap v => [commandWord 0x03 (if v then 1 else 0) 0]
  | .reset => [commandWord 0x10 0 0]
  | .update len => [commandWord 0x11 0 len]
  | .sum => [commandWord 0x12 0 0]
  | .checksum len => [commandWord 0x13 0 len]
  | .size => [commandWord 0x14 0 0]
  | .blksize => [commandWord 0x15 0 0]
  | .rdstate => [commandWord 0x16 0 0]
  | .wrstate opw => [commandWord 0x17 0 0, opw]

/-- One row of the opcode map (R64). -/
structure OpcodeRow where
  mnemonic : String
  format : Format
  pattern : Word
  mask : Word
deriving DecidableEq, Repr

/-- `w` selects the row when `(w and mask) = match` (R64). -/
def OpcodeRow.selects (r : OpcodeRow) (w : Word) : Bool := w &&& r.mask == r.pattern

/-- The opcode map of R64, row by row. -/
def opcodeRows : List OpcodeRow :=
  [ ⟨"NOP",      .F0, 0x0000000000000000, 0xFFFFFFFFFFFFFFFF⟩,
    ⟨"TGEN",     .F0, 0x0100000000000000, 0xFFFFFFFFFFFFFFFF⟩,
    ⟨"PROBE",    .F0, 0x0200000000000000, 0xFFFFFFFFFFFFFFFF⟩,
    ⟨"SETCAP",   .FA, 0x0300000000000000, 0xFFFEFFFFFFFFFFFF⟩,
    ⟨"RESET",    .F0, 0x1000000000000000, 0xFFFFFFFFFFFFFFFF⟩,
    ⟨"UPDATE",   .FL, 0x1100000000000000, 0xFFFF000000000000⟩,
    ⟨"SUM",      .F0, 0x1200000000000000, 0xFFFFFFFFFFFFFFFF⟩,
    ⟨"CHECKSUM", .FL, 0x1300000000000000, 0xFFFF000000000000⟩,
    ⟨"SIZE",     .F0, 0x1400000000000000, 0xFFFFFFFFFFFFFFFF⟩,
    ⟨"BLKSIZE",  .F0, 0x1500000000000000, 0xFFFFFFFFFFFFFFFF⟩,
    ⟨"RDSTATE",  .F0, 0x1600000000000000, 0xFFFFFFFFFFFFFFFF⟩,
    ⟨"WRSTATE",  .FW, 0x1700000000000000, 0xFFFFFFFFFFFFFFFF⟩ ]

/-- The mnemonic of a command, as R64 spells it. -/
def Instr.mnemonic : Instr → String
  | .nop => "NOP"
  | .tgen => "TGEN"
  | .probe => "PROBE"
  | .setcap _ => "SETCAP"
  | .reset => "RESET"
  | .update _ => "UPDATE"
  | .sum => "SUM"
  | .checksum _ => "CHECKSUM"
  | .size => "SIZE"
  | .blksize => "BLKSIZE"
  | .rdstate => "RDSTATE"
  | .wrstate _ => "WRSTATE"

/-- The command-port words of an instruction whose bits, numbered as spec/opcode_table.json numbers
them, are `w`: the command word is bits 63:0 and an operand word bits 127:64. -/
def tableWords (nbits w : Nat) : List Word :=
  [BitVec.ofNat 64 (w % 2 ^ nbits), BitVec.ofNat 64 ((w % 2 ^ nbits) >>> 64)]

/-- The command the decoder reads from an instruction given as table bits. -/
def decodeTableWord (nbits w : Nat) : Option Instr :=
  match decode (tableWords nbits w) with
  | .ok i => some i
  | .error _ => none

end Sys2Proof
end

