-- ==== Sys2Proof/Config.lean ====
section
/-! DEFINITION. What one C64N implementation fixes, and the values the spec leaves open. Every
constant here is `opaque`: no proof can learn its value, so whatever is proved holds for all of
them, as spec/93_implementation_defined.md asks of a *parameter*. -/

namespace Sys2Proof

/-- The parameter NLANES, in {1, 2, 4, 8} (spec/00_scope.md R5). -/
inductive NLanes where
  | one | two | four | eight
deriving DecidableEq, Repr, Inhabited

/-- The number NLANES stands for (R5). -/
def NLanes.count : NLanes → Nat
  | .one => 1
  | .two => 2
  | .four => 4
  | .eight => 8

/-- `FOLDBLK = 16 * NLANES` bytes (R5). -/
def NLanes.foldBlk (nl : NLanes) : Nat := 16 * nl.count

/-- The number of tables KT: 1 when SLICE8 = 0, 8 when SLICE8 = 1 (spec/10_state.md R20). -/
def tableCount (slice8 : Bool) : Nat := if slice8 then 8 else 1

/-- NLANES of this implementation (R5; log entry 1). Free: every claim holds for all four. -/
opaque Config.nlanes : NLanes

/-- SLICE8 of this implementation (R6; log entry 1). Free: every claim holds for both. -/
opaque Config.slice8 : Bool

/-- The level of the pin `cap_in` in `State.reset` (R7; log entry 2). Free. -/
opaque Config.capIn : Bool

/-- The level of the strap pin `testen` in `State.reset` (R7; log entry 2). Free. -/
opaque Config.testen : Bool

/-- What `ACC[lane]` holds after a command that ran FOLD: the spec calls the accumulators' content
between commands unspecified (spec/10_state.md R28; log entry 3). A FREE VALUE: the first argument
is the draw counter of State, so that no two draws are known to agree. -/
opaque Config.accBetweenCommands : Nat → Nat → Lane

end Sys2Proof
end

