-- ==== Sys2Proof/Machine/State.lean ====
section
/-! DEFINITION. The architectural state of one C64N instance (spec/10_state.md R20, with the spec's
own names), its ports and input pins (spec/30_encoding.md R60), and the state after hardware reset
(R33). Plain data throughout. -/

namespace Sys2Proof.Machine

/-- The table RAM, space TAB (spec/20_memory.md R40): entry index `k*256 + i` and its 64-bit entry,
in one canonical form: indices strictly rising, no listed entry equal to what an unlisted index
reads as. The unit is the spec's, a whole 64-bit entry (R46; log entry 5). -/
abbrev Memory := List (Nat × Word)

/-- What an unlisted index of the table RAM reads as. The spec leaves the RAM's content after reset
unspecified (R33); the value is this model's choice (DESIGN CHOICE, unsafe: log entry 4), and no
command reads it, because TV = 1 whenever READY = 1 (R24, R32). -/
def Memory.unlisted : Word := 0

/-- The canonical form of the table RAM. -/
def Memory.wf : Memory → Bool
  | [] => true
  | [(_, v)] => v != Memory.unlisted
  | (a, v) :: (b, w) :: rest => v != Memory.unlisted && decide (a < b) && Memory.wf ((b, w) :: rest)

/-- One response (spec/30_encoding.md R67): `VAL` and `STAT` on the response port, `DOUT` on the
digest port (empty but for SUM). -/
structure Response where
  val : Word
  stat : BitVec 8
  dout : List Byte
deriving DecidableEq, Repr

/-- The state. The first block is R20's table; then the bookkeeping of R30; then the ports and pins
of R60; then the model's own draw counter for free values. -/
@[ext]
structure State where
  /-- The CRC state: the pre-inversion remainder (R21). -/
  S : Word
  /-- The table RAM `T[k][i]` (R23). -/
  T : Memory
  /-- Table valid (R24). -/
  TV : Bool
  /-- The capability flag (R25). -/
  CAP : Bool
  /-- Capability latched (R25). -/
  CAPV : Bool
  /-- The test-mode strap, latched at hardware reset (R26). -/
  TESTEN : Bool
  /-- The sticky fault flag (R27). -/
  ILL : Bool
  /-- The cause code of the first fault since reset (R27). -/
  CAUSE : BitVec 2
  /-- Boot complete (R27). -/
  READY : Bool
  /-- The NLANES scratch accumulators of FOLD (R28). -/
  ACC : List Lane
  /-- The number of completed frames: bookkeeping, no command reads it (R30). -/
  cidx : Nat
  /-- Level of the input `rst` (R60). -/
  rst : Bool
  /-- Level of the input `cap_in` (R60). -/
  capIn : Bool
  /-- Level of the input `testen` (R60). -/
  testen : Bool
  /-- Words the host has put on the command port and the engine has not consumed, oldest first. -/
  cmdPort : List Word
  /-- Bytes the host has put on the data port and the engine has not consumed, oldest first. -/
  dataPort : List Byte
  /-- Responses produced and not yet taken by the host, oldest first. -/
  respPort : List Response
  /-- The model's own: how many free values have been drawn (log entry 3). -/
  draws : Nat
deriving DecidableEq, Repr

/-- No C64N step stops the machine with a fault: the only exception, `Ill(cause)` (spec/60_exceptions.md
R150), is a next state (R151: "The engine does not halt"), and "No command fails" (R67). So there is
no reason of this kind. -/
inductive Fault
deriving DecidableEq, Repr

/-- The one reason an instruction may have no meaning. -/
inductive Refusal where
  /-- Raised by an arm of `exec` whose instruction has no meaning yet. No arm raises it in this model.
  Safe: nothing can be proved of what such an instruction does. -/
  | notModelled (mnemonic : String)
deriving DecidableEq, Repr

/-- Immediately after hardware reset, before boot (R33, middle column): S = INIT, every flag 0, and
TESTEN at the strap's value. T and ACC are unspecified there: nothing listed and zero (log entries 4
and 3). Nothing is on a port. The pins are at the levels of the launch, `rst` released (R7). -/
def State.reset : State where
  S := 0xFFFFFFFFFFFFFFFF
  T := []
  TV := false
  CAP := false
  CAPV := false
  TESTEN := Config.testen
  ILL := false
  CAUSE := 0
  READY := false
  ACC := List.replicate Config.nlanes.count 0
  cidx := 0
  rst := false
  capIn := Config.capIn
  testen := Config.testen
  cmdPort := []
  dataPort := []
  respPort := []
  draws := 0

end Sys2Proof.Machine
end

