-- ==== Sys2Proof/Machine/Flags.lean ====
section
/-! DEFINITION. The status byte and the flag values (spec/10_state.md R27, spec/30_encoding.md R67). -/

namespace Sys2Proof.Machine

/-- `STAT = CAUSE[1:0] :: ILL :: TESTEN :: CAP :: CAPV :: TV :: READY` (R27). -/
def State.stat (s : State) : BitVec 8 :=
  s.CAUSE ++ BitVec.ofBool s.ILL ++ BitVec.ofBool s.TESTEN ++ BitVec.ofBool s.CAP ++
    BitVec.ofBool s.CAPV ++ BitVec.ofBool s.TV ++ BitVec.ofBool s.READY

/-- `zext_64` of a one-bit flag (spec/00_scope.md section 4), the VAL of PROBE and SETCAP (R67). -/
def zextFlag (b : Bool) : Word := (BitVec.ofBool b).setWidth 64

/-- The two-bit code recorded in CAUSE (spec/60_exceptions.md R150). -/
def illCode : IllCause → BitVec 2
  | .opc => 1
  | .field => 2
  | .priv => 3

end Sys2Proof.Machine
end

