-- ==== Sys2Proof/Machine/Operands.lean ====
section
/-! DEFINITION. The operand forms (spec/30_encoding.md R63): the payload of a frame, its little-endian
reads (spec/20_memory.md R43), and the big-endian digest (R44). -/

namespace Sys2Proof.Machine

/-- The payload of the frame at the head of the ports: the first LEN bytes on the data port, in
payload order (R60, R62). This is the space PAY for the duration of the frame (R41). -/
def State.payload (s : State) (len : Nat) : List Byte := s.dataPort.take len

/-- `sum over t of D[t] << (8*t)`: the little-endian value of a byte sequence (R43). -/
def leValue : List Byte → Nat
  | [] => 0
  | b :: rest => b.toNat + 256 * leValue rest

/-- `MemRead(PAY, off, n)`: the bytes `D[off .. off+n)` (R43, R47). R47 defines it only when `off + n <= LEN`; here
it is total and gives the bytes that are there (DESIGN CHOICE: log entry 22). Every use is guarded, as in R47. -/
def payBytes (D : List Byte) (off n : Nat) : List Byte := (D.drop off).take n

/-- `LE64(D, off)` (R43); past the end of D a byte counts as 0 (DESIGN CHOICE: log entry 22). -/
def le64 (D : List Byte) (off : Nat) : Word := BitVec.ofNat 64 (leValue (payBytes D off 8))

/-- `LE128(D, off)` (R43, R101): the first byte is bits 7:0 of the lane; past the end of D a byte counts as
0 (DESIGN CHOICE: log entry 22). -/
def le128 (D : List Byte) (off : Nat) : Lane := BitVec.ofNat 128 (leValue (payBytes D off 16))

/-- Byte k of a word, `w[8k+7 : 8k]`. -/
def byteOf (w : Word) (k : Nat) : Byte := w.extractLsb' (8 * k) 8

/-- The digest of a value: `DOUT[i] = v[63-8i : 56-8i]`, most significant byte first (R44). -/
def beBytes (v : Word) : List Byte := (List.range 8).map fun i => v.extractLsb' (56 - 8 * i) 8

/-- `zext_64(LEN)` (R63, R67). -/
def zextLen (len : Nat) : Word := BitVec.ofNat 64 len

end Sys2Proof.Machine
end

