-- ==== Sys2Proof/Machine/Rom.lean ====
section
/-! DEFINITION. The constant ROM (spec/10_state.md R29; spec/00_scope.md R4; spec/42_clmul_folder.md
R102): the values as the spec prints them. -/

namespace Sys2Proof.Machine

/-- The generator polynomial in reflected form: bit i is the coefficient of x^(63-i) (R4). -/
def POLY_R : Word := 0x9A6C9329AC4BC9B5

/-- The generator polynomial in normal form: bit i is the coefficient of x^i (R4). -/
def POLY_N : Word := 0xAD93D23594C93659

/-- The initial raw state (R4). -/
def INIT : Word := 0xFFFFFFFFFFFFFFFF

/-- The final exclusive or (R4). -/
def XOROUT : Word := 0xFFFFFFFFFFFFFFFF

/-- `K127 = K(127)` (R102). -/
def K127 : Word := 0x21E9761E252621AC

/-- `K191 = K(191)` (R102). -/
def K191 : Word := 0xEADC41FD2BA3D420

/-- `KLO_B = K(128*NLANES - 1)`, block fold, high half of a lane (R102). -/
def KLO_B : NLanes → Word
  | .one => 0x21E9761E252621AC
  | .two => 0xE1E0BB9D45D7A44C
  | .four => 0x62242240ACE5045A
  | .eight => 0x5F852FB61E8D92DC

/-- `KHI_B = K(128*NLANES + 63)`, block fold, low half of a lane (R102). -/
def KHI_B : NLanes → Word
  | .one => 0xEADC41FD2BA3D420
  | .two => 0xB0BC2E589204F500
  | .four => 0x0C32CDB31E18A84A
  | .eight => 0xA1CA681E733F9C40

/-- `MU_R`: the low 64 coefficients of floor(x^128 / P), reflected (R102). -/
def MU_R : Word := 0x13F67D194D77CFBB

end Sys2Proof.Machine
end

