-- ==== Sys2Proof/Machine/Ops.lean ====
section
/-! DEFINITION. The shared operations: the table RAM (spec/20_memory.md R47), consuming a frame and
responding (spec/30_encoding.md R62, R67), taking the exception `Ill(cause)` (spec/60_exceptions.md
R151), and hardware reset (spec/70_reset_and_hazards.md R170). -/

namespace Sys2Proof.Machine

/-- `MemRead(TAB, a, 8)` (R47). -/
def Memory.read : Memory → Nat → Word
  | [], _ => Memory.unlisted
  | (b, w) :: rest, a => if a = b then w else Memory.read rest a

/-- An entry at the head of a table RAM in canonical form: not listed when it equals what an
unlisted index reads as. -/
def Memory.put (a : Nat) (v : Word) (m : Memory) : Memory :=
  if v = Memory.unlisted then m else (a, v) :: m

/-- `MemWrite(TAB, a, 8, v)` (R47), keeping the canonical form. -/
def Memory.write : Memory → Nat → Word → Memory
  | [], a, v => Memory.put a v []
  | (b, w) :: rest, a, v =>
    if a < b then Memory.put a v ((b, w) :: rest)
    else if a = b then Memory.put a v rest
    else (b, w) :: Memory.write rest a v

/-- The entries `f 0 .. f (n-1)` written to indices `0 .. n-1`. The order of the writes is not
observable (spec/40_table_generator.md R82); the highest index is written first. -/
def Memory.writeAll (m : Memory) (n : Nat) (f : Nat → Word) : Memory :=
  (List.range n).foldr (fun a t => Memory.write t a (f a)) m

/-- The frame's words and payload bytes leave the ports (R62). -/
def State.consume (e : Extent) (s : State) : State :=
  { s with cmdPort := s.cmdPort.drop e.words, dataPort := s.dataPort.drop e.bytes }

/-- `respond(VAL, DOUT)` (R67): the response carries the status after the command's writes, and the
frame is complete, so `cidx` counts it (spec/10_state.md R30). -/
def State.respond (val : Word) (dout : List Byte) (s : State) : State :=
  { s with respPort := s.respPort ++ [⟨val, s.stat, dout⟩], cidx := s.cidx + 1 }

/-- A frame completes: it is consumed and its response produced. Every command ends in this. -/
def State.complete (e : Extent) (val : Word) (dout : List Byte) (s : State) : State :=
  (s.consume e).respond val dout

/-- The record of a fault: CAUSE keeps the first cause since reset, ILL is sticky (R151, R152). -/
def State.recordIll (c : IllCause) (s : State) : State :=
  { s with CAUSE := if s.ILL then s.CAUSE else illCode c, ILL := true }

/-- `raise Ill(c)`, taking the machine's one exception (R151): the whole frame is consumed and
discarded, the cause is recorded, the response has VAL = 0 and no digest, and nothing else changes.
There is no handler, no vector, no saved state and no return (R153): the next frame is executed
normally. -/
def State.raiseIll (c : IllCause) (e : Extent) (s : State) : State :=
  (s.recordIll c).complete e 0 []

/-- Everything the frame claims has been supplied by the host (R62, R159). -/
def State.supplied (e : Extent) (s : State) : Bool :=
  decide (e.words ≤ s.cmdPort.length) && decide (e.bytes ≤ s.dataPort.length)

/-- The engine waits, with no effect, until the frame has been supplied in full (R159: "the engine
waits for ever; what lifts the wait is the host supplying the bytes, or reset"). -/
def State.whenSupplied (e : Extent) (f : State → State) (s : State) : State :=
  if s.supplied e then f s else s

/-- The extent of the frame whose command word is at the head of the command port (R62). It is read only
where a command word is there. -/
def State.headExtent (s : State) : Extent := frameExtent (s.cmdPort.headD 0)

/-- A frame is in progress: its command word was accepted (READY = 1) and the engine is still waiting for
the rest of it (R159). -/
def State.inProgress (s : State) : Bool := s.READY && !s.cmdPort.isEmpty && !s.supplied s.headExtent

/-- The frame in progress, if there is one, is abandoned, with no response (R170): its command word, and
the payload bytes the engine had taken for it, are lost. Words and bytes not yet consumed stay with the host
(log entry 6). -/
def State.abandonFrame (s : State) : State :=
  { s with
    cmdPort := if s.inProgress then s.cmdPort.drop 1 else s.cmdPort
    dataPort := if s.inProgress then s.dataPort.drop s.headExtent.bytes else s.dataPort }

/-- Hardware reset (R170): the frame in progress is abandoned, every register takes its value
after hardware reset (R33), the strap is latched into TESTEN, READY = 0. The pins are inputs and the
ports hold what the host has sent and not had consumed, or been given and not yet taken. -/
def State.hardwareReset (s : State) : State :=
  { State.reset with
    TESTEN := s.testen
    rst := s.rst
    capIn := s.capIn
    testen := s.testen
    cmdPort := s.abandonFrame.cmdPort
    dataPort := s.abandonFrame.dataPort
    respPort := s.respPort
    draws := s.draws }

end Sys2Proof.Machine
end

