-- ==== Sys2Proof/Machine/Tgen.lean ====
section
/-! DEFINITION. TGEN, the table generator (spec/40_table_generator.md). -/

namespace Sys2Proof.Machine

/-- `BITSTEP(c)` (R80). -/
def bitStep (c : Word) : Word := if c.getLsbD 0 then (c >>> 1) ^^^ POLY_R else c >>> 1

/-- `n` BITSTEPs. -/
def bitSteps : Nat → Word → Word
  | 0, c => c
  | n + 1, c => bitSteps n (bitStep c)

/-- `TABENTRY(i)`: eight BITSTEPs from the index (R81). -/
def tabEntry (i : Byte) : Word := bitSteps 8 (i.setWidth 64)

/-- `TABENTRY(c[7:0]) xor (c >> 8)`: one zero byte fed to `c` (R83). -/
def zeroByteStep (c : Word) : Word := tabEntry (byteOf c 0) ^^^ (c >>> 8)

/-- `SLICETAB(k, i)` (R83). -/
def sliceTab : Nat → Byte → Word
  | 0, i => tabEntry i
  | k + 1, i => zeroByteStep (sliceTab k i)

/-- The entry TGEN writes at index `a = k*256 + i` (R40, R82). -/
def tabValue (a : Nat) : Word := sliceTab (a / 256) (BitVec.ofNat 8 (a % 256))

/-- The table RAM after generation (R82): `T[0][i] = TABENTRY(i)`, and with SLICE8 = 1 also
`T[k][i] = SLICETAB(k, i)`. -/
def generate (slice8 : Bool) (t : Memory) : Memory := t.writeAll (tableCount slice8 * 256) tabValue

/-- The body of TGEN without its response (R82), which boot runs too (spec/70_reset_and_hazards.md
R172): generate once, then TV = 1. -/
def State.tgenBody (s : State) : State :=
  { s with T := if s.TV then s.T else generate Config.slice8 s.T, TV := true }

/-- `TGEN` (R82). -/
def execTgen (s : State) : Host.Outcome State Fault Refusal :=
  .next (s.tgenBody.complete .word 0 [])

end Sys2Proof.Machine
end

