-- ==== Sys2Proof/Machine/Ref.lean ====
section
/-! DEFINITION. REF, the table-driven reference path (spec/41_reference_path.md). The table is a
parameter: the machine passes the reads of its table RAM. -/

namespace Sys2Proof.Machine

/-- A table as REF sees it: the entry at index `k*256 + i` (spec/20_memory.md R47). -/
abbrev Table := Nat → Word

/-- `T[k][i]`. -/
def Table.entry (T : Table) (k : Nat) (i : Byte) : Word := T (k * 256 + i.toNat)

/-- `REFSTEP(s, b)` (R90). -/
def refStep (T : Table) (s : Word) (b : Byte) : Word :=
  T.entry 0 (byteOf (s ^^^ b.setWidth 64) 0) ^^^ (s >>> 8)

/-- `REFUPD(s, D)` (R91): the bytes in order of increasing index, no complement. -/
def refUpd (T : Table) (s : Word) (D : List Byte) : Word := D.foldl (refStep T) s

/-- The eight lookups and xor-folds of one slice-by-8 iteration on `w = s xor LE64(D, off)` (R94): byte
t of `w` goes through table 7-t. -/
def sliceLookups (T : Table) (w : Word) : Word :=
  T.entry 7 (byteOf w 0) ^^^ T.entry 6 (byteOf w 1) ^^^ T.entry 5 (byteOf w 2) ^^^ T.entry 4 (byteOf w 3) ^^^
    T.entry 3 (byteOf w 4) ^^^ T.entry 2 (byteOf w 5) ^^^ T.entry 1 (byteOf w 6) ^^^ T.entry 0 (byteOf w 7)

/-- The loop of SLICE8UPD with `n` groups of eight bytes left, then REFUPD on what remains (R94). -/
def sliceLoop (T : Table) : Nat → Word → List Byte → Word
  | 0, s, D => refUpd T s D
  | n + 1, s, D => sliceLoop T n (sliceLookups T (s ^^^ le64 D 0)) (D.drop 8)

/-- `SLICE8UPD(s, D)` (R94). -/
def slice8Upd (T : Table) (s : Word) (D : List Byte) : Word := sliceLoop T (D.length / 8) s D

/-- `REFPATH(s, D)` (R95). -/
def refPath (slice8 : Bool) (T : Table) (s : Word) (D : List Byte) : Word :=
  if slice8 then slice8Upd T s D else refUpd T s D

end Sys2Proof.Machine
end

