-- ==== Sys2Proof/Machine/Fold.lean ====
section
/-! DEFINITION. FOLD, the carryless-multiply folder (spec/42_clmul_folder.md). -/

namespace Sys2Proof.Machine

/-- `CLMUL64(a, b)` (R100): the xor of `zext_128(a) << i` over the bits i set in b. -/
def clmul64 (a b : Word) : Lane :=
  (List.range 64).foldl (fun r i => if b.getLsbD i then r ^^^ (a.setWidth 128 <<< i) else r) 0

/-- `A[63:0]`. -/
def laneLow (A : Lane) : Word := A.extractLsb' 0 64

/-- `A[127:64]`. -/
def laneHigh (A : Lane) : Word := A.extractLsb' 64 64

/-- `FOLD128(A, khi, klo)` (R103): `khi` meets the low half. -/
def fold128 (A : Lane) (khi klo : Word) : Lane := clmul64 (laneLow A) khi ^^^ clmul64 (laneHigh A) klo

/-- Step 1 of REDUCE128 (R104): 128 bits congruent to Phi(A) * x^64. -/
def reduceB (A : Lane) : Lane := clmul64 (laneLow A) K127 ^^^ (laneHigh A).setWidth 128

/-- Step 2 of REDUCE128 (R104): the Barrett quotient of BH. -/
def reduceQ (BH : Word) : Word := BH ^^^ (laneLow (clmul64 BH MU_R) <<< 1)

/-- `REDUCE128(A)` (R104): step 3 multiplies back and keeps `BL xor V[126:63]`. -/
def reduce128 (A : Lane) : Word :=
  laneHigh (reduceB A) ^^^ (clmul64 (reduceQ (laneLow (reduceB A))) POLY_R).extractLsb' 63 64

/-- The lanes of the block at byte offset `off`: lane j is `LE128(D, off + 16*j)` (R101, R105). -/
def blockLanes (nl : NLanes) (D : List Byte) (off : Nat) : List Lane :=
  (List.range nl.count).map fun j => le128 D (off + 16 * j)

/-- The state enters the low 64 bits of lane 0 (R105, step 2). -/
def enterState (s : Word) : List Lane → List Lane
  | [] => []
  | a :: rest => (a ^^^ s.setWidth 128) :: rest

/-- One iteration of step 3 (R105): every accumulator is folded and takes its lane of the block. -/
def foldBlock (nl : NLanes) (acc lanes : List Lane) : List Lane :=
  List.zipWith (fun a d => fold128 a (KHI_B nl) (KLO_B nl) ^^^ d) acc lanes

/-- Steps 2 and 3 (R105): the accumulators after `m` full blocks. -/
def foldBlocks (nl : NLanes) (s : Word) (D : List Byte) (m : Nat) : List Lane :=
  (List.range (m - 1)).foldl
    (fun acc b => foldBlock nl acc (blockLanes nl D ((b + 1) * nl.foldBlk)))
    (enterState s (blockLanes nl D 0))

/-- Step 4 (R105): the lanes combined into one. -/
def combineLanes : List Lane → Lane
  | [] => 0
  | a :: rest => rest.foldl (fun A c => fold128 A K191 K127 ^^^ c) a

/-- `FOLDUPD(s, D)` (R105). It enters REFPATH at the two places of R105 and nowhere else (R110): for an
input shorter than one block, and for the tail. -/
def foldUpd (nl : NLanes) (slice8 : Bool) (T : Table) (s : Word) (D : List Byte) : Word :=
  if D.length < nl.foldBlk then refPath slice8 T s D
  else
    refPath slice8 T (reduce128 (combineLanes (foldBlocks nl s D (D.length / nl.foldBlk))))
      (D.drop (D.length / nl.foldBlk * nl.foldBlk))

end Sys2Proof.Machine
end

