-- ==== Sys2Proof/Machine/Disp.lean ====
section
/-! DEFINITION. DISP, the dispatcher with its capability probe (spec/43_dispatcher.md). -/

namespace Sys2Proof.Machine

/-- The body of PROBE without its response (R120), which boot runs too (spec/70_reset_and_hazards.md
R172): the oracle's answer is latched once. -/
def State.probeBody (s : State) : State :=
  { s with CAP := if s.CAPV then s.CAP else s.capIn, CAPV := true }

/-- `PROBE` (R120): VAL is CAP after the probe. -/
def execProbe (s : State) : Host.Outcome State Fault Refusal :=
  .next (s.probeBody.complete .word (zextFlag s.probeBody.CAP) [])

/-- `SETCAP V` (R121): in production mode (TESTEN = 0) it raises Ill(3), in test mode CAP <- V. -/
def execSetcap (v : Bool) (s : State) : Host.Outcome State Fault Refusal :=
  .next (if s.TESTEN then { s with CAP := v }.complete .word (zextFlag v) [] else s.raiseIll .priv .word)

/-- `DISPATCH(s, D)` (R122), CAP being its first argument. -/
def dispatch (cap : Bool) (nl : NLanes) (slice8 : Bool) (T : Table) (s : Word) (D : List Byte) : Word :=
  if cap then foldUpd nl slice8 T s D else refPath slice8 T s D

/-- DISPATCH on this machine: CAP, the table RAM and the implementation's parameters. -/
def State.dispatch (s : State) (crc : Word) (D : List Byte) : Word :=
  Machine.dispatch s.CAP Config.nlanes Config.slice8 s.T.read crc D

/-- Whether DISPATCH of `len` bytes writes the accumulators: FOLD runs and has a full block (R105). -/
def State.folds (s : State) (len : Nat) : Bool := s.CAP && decide (Config.nlanes.foldBlk ≤ len)

/-- The accumulators after a command whose payload was `len` bytes: scratch, their content between
commands is unspecified (spec/10_state.md R28), so each lane FOLD wrote holds a free value. -/
def State.scratchAcc (len : Nat) (s : State) : State :=
  { s with
    ACC := if s.folds len then
        (List.range Config.nlanes.count).map (Config.accBetweenCommands s.draws)
      else s.ACC
    draws := if s.folds len then s.draws + 1 else s.draws }

end Sys2Proof.Machine
end

