-- ==== Sys2Proof/Machine/Hcl.lean ====
section
/-! DEFINITION. HCL, the host command layer (spec/44_host_commands.md). S holds the pre-inversion state
throughout: only SUM and CHECKSUM complement, and only a copy (R142). -/

namespace Sys2Proof.Machine

/-- `NOP` (R130). -/
def execNop (s : State) : Host.Outcome State Fault Refusal :=
  .next (s.complete .word 0 [])

/-- `RESET` (R131): S <- INIT. -/
def execReset (s : State) : Host.Outcome State Fault Refusal :=
  .next ({ s with S := INIT }.complete .word 0 [])

/-- The effect of UPDATE once its payload is there (R132): S <- DISPATCH(S, D), VAL = LEN. -/
def State.updateBody (len : Nat) (s : State) : State :=
  ({ s with S := s.dispatch s.S (s.payload len) }.scratchAcc len).complete (.payload len) (zextLen len) []

/-- `UPDATE` (R132); it waits for its payload (spec/60_exceptions.md R159). -/
def execUpdate (len : Nat) (s : State) : Host.Outcome State Fault Refusal :=
  .next (if len ≤ s.dataPort.length then s.updateBody len else s)

/-- `invertOut`: the final exclusive or with XOROUT, on a copy (R142; spec/00_scope.md R4). -/
def invertOut (crc : Word) : Word := crc ^^^ XOROUT

/-- `SUM` (R133): VAL = not S, DOUT its eight bytes, most significant first; S is not written. -/
def execSum (s : State) : Host.Outcome State Fault Refusal :=
  .next (s.complete .word (invertOut s.S) (beBytes (invertOut s.S)))

/-- The effect of CHECKSUM once its payload is there (R134): S is neither read nor written. -/
def State.checksumBody (len : Nat) (s : State) : State :=
  (s.scratchAcc len).complete (.payload len) (invertOut (s.dispatch INIT (s.payload len))) []

/-- `CHECKSUM` (R134); it waits for its payload (spec/60_exceptions.md R159). -/
def execChecksum (len : Nat) (s : State) : Host.Outcome State Fault Refusal :=
  .next (if len ≤ s.dataPort.length then s.checksumBody len else s)

/-- `SIZE` (R135): constant 8. -/
def execSize (s : State) : Host.Outcome State Fault Refusal :=
  .next (s.complete .word 8 [])

/-- `BLKSIZE` (R136): constant 1. -/
def execBlksize (s : State) : Host.Outcome State Fault Refusal :=
  .next (s.complete .word 1 [])

/-- `RDSTATE` (R137): VAL = S. -/
def execRdstate (s : State) : Host.Outcome State Fault Refusal :=
  .next (s.complete .word s.S [])

/-- `WRSTATE OPW` (R138): S <- OPW. -/
def execWrstate (opw : Word) (s : State) : Host.Outcome State Fault Refusal :=
  .next ({ s with S := opw }.complete .operand 0 [])

end Sys2Proof.Machine
end

