-- ==== Sys2Proof/Machine/Dispatch.lean ====
section
/-! DEFINITION. One arm per command (spec/30_encoding.md R64). -/

namespace Sys2Proof.Machine

/-- The meaning of each command. -/
def exec (i : Instr) (s : State) : Host.Outcome State Fault Refusal :=
  match i with
  | .nop => Sys2Proof.Machine.execNop s
  | .tgen => Sys2Proof.Machine.execTgen s
  | .probe => Sys2Proof.Machine.execProbe s
  | .setcap v => Sys2Proof.Machine.execSetcap v s
  | .reset => Sys2Proof.Machine.execReset s
  | .update len => Sys2Proof.Machine.execUpdate len s
  | .sum => Sys2Proof.Machine.execSum s
  | .checksum len => Sys2Proof.Machine.execChecksum len s
  | .size => Sys2Proof.Machine.execSize s
  | .blksize => Sys2Proof.Machine.execBlksize s
  | .rdstate => Sys2Proof.Machine.execRdstate s
  | .wrstate opw => Sys2Proof.Machine.execWrstate opw s

end Sys2Proof.Machine
end

