-- ==== Sys2Proof/Machine/Boot.lean ====
section
/-! DEFINITION. The boot sequencer (spec/70_reset_and_hazards.md R172). -/

namespace Sys2Proof.Machine

/-- The next step of boot (R172): TGEN, then PROBE, then READY <- 1, with no response and without
advancing `cidx`. TV and CAPV say how far boot has come, since a hardware reset clears both and a
second TGEN or PROBE changes nothing (spec/40_table_generator.md R82, spec/43_dispatcher.md R120). -/
def State.bootStep (s : State) : State :=
  if !s.TV then s.tgenBody
  else if !s.CAPV then s.probeBody
  else { s with READY := true }

/-- Boot from wherever it stands to READY = 1 (R172). -/
def State.bootAll (s : State) : State :=
  { s.tgenBody.probeBody with READY := true }

end Sys2Proof.Machine
end

