-- ==== Sys2Proof/Machine/Fetch.lean ====
section
/-! DEFINITION. Accepting a frame from the command port (spec/30_encoding.md R60, R62, R65): what the
engine does with words that decode to no command. -/

namespace Sys2Proof.Machine

/-- The words on the command port decode to no command. A frame that is not there in
full is waited for (spec/60_exceptions.md R159); an illegal frame raises its exception and is
consumed whole (R62, R65, spec/60_exceptions.md R151). -/
def State.rejectFrame (e : DecodeError) (s : State) : State :=
  match e with
  | .incomplete => s
  | .illOpc => s.whenSupplied s.headExtent (State.raiseIll .opc s.headExtent)
  | .illField => s.whenSupplied s.headExtent (State.raiseIll .field s.headExtent)

/-- The command-port words and zero payload bytes that put the instruction with table bits `w` at the
head of the ports. -/
def frameWords (nbits w : Nat) : List Word :=
  (tableWords nbits w).take (frameExtent (BitVec.ofNat 64 (w % 2 ^ nbits))).words

/-- The payload of zeros that the instruction with table bits `w` claims. -/
def framePayload (nbits w : Nat) : List Byte :=
  List.replicate (frameExtent (BitVec.ofNat 64 (w % 2 ^ nbits))).bytes 0

/-- The engine ready for a frame, and the frame alone on its ports: boot has run, `rst` is released. -/
def State.load (words : List Word) (payload : List Byte) (s : State) : State :=
  { s.bootAll with rst := false, cmdPort := words, dataPort := payload }

end Sys2Proof.Machine
end

