-- ==== Sys2Proof/Machine/Step.lean ====
section
/-! DEFINITION. One step of the machine: one frame is one atomic transition (spec/20_memory.md R48). -/

namespace Sys2Proof.Machine

/-- One step. While `rst` is asserted the engine is held in reset (spec/70_reset_and_hazards.md R170); only a step
looks at the level (DESIGN CHOICE: log entry 12).
While READY = 0 boot proceeds and no word is accepted (R172, R173). Otherwise the command at the head
of the command port is executed; with an empty port the engine is idle and holds its state
(spec/60_exceptions.md R157). -/
def step (s : State) : Host.Outcome State Fault Refusal :=
  if s.rst then .next s.hardwareReset
  else if !s.READY then .next s.bootStep
  else
    match decode s.cmdPort with
    | .ok i => exec i s
    | .error e => .next (s.rejectFrame e)

/-- `s` with the instruction whose table bits are `w` as the one frame on the ports of a booted engine,
its payload all zeros, so that the next step runs exactly it (log entry 7). -/
def State.withFetchWord (s : State) (nbits w : Nat) : State :=
  s.load (frameWords nbits w) (framePayload nbits w)

end Sys2Proof.Machine
end

