-- ==== Sys2Proof/Machine/HostPort.lean ====
section
/-! DEFINITION. What the host may do (spec/60_exceptions.md R159), as moves on the ports and pins of the
state (spec/30_encoding.md R60). A move is the outside world's; `step` is the engine's. -/

namespace Sys2Proof.Machine

/-- One move of the host. -/
inductive HostMove where
  /-- Put a word on the command port: any 64-bit word may be sent, and it stays with the host's side of
  the port until the engine takes it (R159; spec/70_reset_and_hazards.md R173). -/
  | sendWord (w : Word)
  /-- Put a byte on the data port (R159). -/
  | sendByte (b : Byte)
  /-- Drive the input `rst`: at any time, including mid-frame (R159; spec/70_reset_and_hazards.md R170). The
  move sets the level, and the reset is the next step that finds it asserted: a pulse with no step between its
  two edges resets nothing (DESIGN CHOICE: log entry 12). -/
  | setRst (level : Bool)
  /-- Drive the input `cap_in`: after boot it is ignored until the next reset (R159). -/
  | setCapIn (level : Bool)
  /-- Drive the strap input `testen`, latched only by a hardware reset (spec/10_state.md R26). -/
  | setTesten (level : Bool)
  /-- Take the oldest response (R159). -/
  | takeResponse
  /-- Discard what was sent and not consumed, around a hardware reset (spec/70_reset_and_hazards.md
  R170). Once READY = 1 an accepted frame cannot be cancelled (spec/60_exceptions.md R154), so the move
  then changes nothing. -/
  | discardInput
deriving DecidableEq, Repr

/-- The effect of a host move: ports and pins only, never a register. -/
def HostMove.apply (m : HostMove) (s : State) : State :=
  match m with
  | .sendWord w => { s with cmdPort := s.cmdPort ++ [w] }
  | .sendByte b => { s with dataPort := s.dataPort ++ [b] }
  | .setRst level => { s with rst := level }
  | .setCapIn level => { s with capIn := level }
  | .setTesten level => { s with testen := level }
  | .takeResponse => { s with respPort := s.respPort.drop 1 }
  | .discardInput =>
    { s with
      cmdPort := if s.READY then s.cmdPort else []
      dataPort := if s.READY then s.dataPort else [] }

/-- A frame as the host sends it: its command-port words and its payload bytes (spec/30_encoding.md
R62). -/
structure Frame where
  words : List Word
  payload : List Byte
deriving DecidableEq, Repr

/-- The frame of a command that carries no payload. -/
def Frame.of (i : Instr) : Frame := ⟨encode i, []⟩

/-- `UPDATE D`: LEN is the payload's length (spec/30_encoding.md R68). A payload of 2^48 bytes or more is not
encodable (R63; spec/93_implementation_defined.md I18): this function is total and would cut its length to 48
bits there, the assembler refuses such a line (DESIGN CHOICE: log entry 21), and every claim bounds the length. -/
def Frame.update (D : List Byte) : Frame := ⟨encode (.update D.length), D⟩

/-- `CHECKSUM D`; as `Frame.update` for a payload of 2^48 bytes or more (DESIGN CHOICE: log entry 21). -/
def Frame.checksum (D : List Byte) : Frame := ⟨encode (.checksum D.length), D⟩

/-- The host sends frames one after another on the ports (R159). -/
def State.send (fs : List Frame) (s : State) : State :=
  { s with
    cmdPort := s.cmdPort ++ fs.flatMap Frame.words
    dataPort := s.dataPort ++ fs.flatMap Frame.payload }

end Sys2Proof.Machine
end

