-- ==== Sys2Proof/Machine/Asm.lean ====
section
/-! DEFINITION. The assembler syntax and the pseudo-instructions (spec/30_encoding.md R68, R69): one line
of text stands for the frames the host sends. -/

namespace Sys2Proof.Machine

/-- A payload as it is written (R68). -/
inductive PayloadText where
  /-- A double-quoted ASCII string: each character is one byte. -/
  | ascii (cs : List Char)
  /-- `x"..."`: pairs of hexadecimal digits. -/
  | hex (bytes : List Byte)
  /-- `ramp(n)`: the n bytes `i mod 256`. -/
  | ramp (n : Nat)
  /-- `zeros(n)`. -/
  | zeros (n : Nat)
deriving DecidableEq, Repr

/-- The bytes a payload text stands for (R68). -/
def PayloadText.bytes : PayloadText → List Byte
  | .ascii cs => cs.map fun c => BitVec.ofNat 8 c.toNat
  | .hex bytes => bytes
  | .ramp n => (List.range n).map fun i => BitVec.ofNat 8 (i % 256)
  | .zeros n => List.replicate n 0

/-- The number of bytes a payload text stands for. -/
def PayloadText.length : PayloadText → Nat
  | .ascii cs => cs.length
  | .hex bytes => bytes.length
  | .ramp n => n
  | .zeros n => n

/-- One assembler line (R68, R69). -/
inductive AsmLine where
  /-- A command without a payload. -/
  | command (i : Instr)
  /-- `UPDATE p`. -/
  | update (p : PayloadText)
  /-- `CHECKSUM p`. -/
  | checksum (p : PayloadText)
  /-- `.word 0x...`: the word unchanged. -/
  | word (cw : Word)
  /-- `NEW`, which is `RESET`. -/
  | new
  /-- `HASH p`, which is `RESET`, `UPDATE p`, `SUM`. -/
  | hash (p : PayloadText)
  /-- `FORCETABLE`, which is `SETCAP 0`. -/
  | forcetable
  /-- `FORCEFOLD`, which is `SETCAP 1`. -/
  | forcefold
  /-- `RDSTAT`, which is `NOP`. -/
  | rdstat
deriving DecidableEq, Repr

/-- The frames a line assembles to (R68, R69): LEN is the payload's length and the payload follows the
command word. -/
def AsmLine.frames : AsmLine → List Frame
  | .command i => [.of i]
  | .update p => [.update p.bytes]
  | .checksum p => [.checksum p.bytes]
  | .word cw => [⟨[cw], []⟩]
  | .new => [.of .reset]
  | .hash p => [.of .reset, .update p.bytes, .of .sum]
  | .forcetable => [.of (.setcap false)]
  | .forcefold => [.of (.setcap true)]
  | .rdstat => [.of .nop]

/-- Whether LEN can hold the length of the line's payload: an input of 2^48 bytes or more in one frame is "not
encodable" (R63; spec/93_implementation_defined.md I18). The spec does not say what the assembler does with such a
line; the model refuses it (DESIGN CHOICE: log entry 21). -/
def AsmLine.encodable : AsmLine → Bool
  | .update p | .checksum p | .hash p => decide (p.length < 2 ^ 48)
  | .command _ | .word _ | .new | .forcetable | .forcefold | .rdstat => true

/-- A hexadecimal digit's value. -/
def hexDigit (c : Char) : Option Nat :=
  if '0' ≤ c ∧ c ≤ '9' then some (c.toNat - 48)
  else if 'A' ≤ c ∧ c ≤ 'F' then some (c.toNat - 55)
  else if 'a' ≤ c ∧ c ≤ 'f' then some (c.toNat - 87)
  else none

/-- The value of digits in a base, most significant first, after `acc`. -/
def digitsValue (base : Nat) (acc : Nat) : List Char → Option Nat
  | [] => some acc
  | c :: rest =>
    match hexDigit c with
    | some d => if d < base then digitsValue base (acc * base + d) rest else none
    | none => none

/-- `0x` and 1 to 16 hexadecimal digits (R68). -/
def parseWord : List Char → Option Word
  | '0' :: 'x' :: ds =>
    if 1 ≤ ds.length ∧ ds.length ≤ 16 then (digitsValue 16 0 ds).map (BitVec.ofNat 64) else none
  | _ => none

/-- Pairs of hexadecimal digits separated by optional spaces, up to the closing quote, which ends the
operand (R68). -/
def parseHexPairs : List Char → Option (List Byte)
  | ['"'] => some []
  | ' ' :: rest => parseHexPairs rest
  | a :: b :: rest =>
    match hexDigit a, hexDigit b, parseHexPairs rest with
    | some x, some y, some bs => some (BitVec.ofNat 8 (16 * x + y) :: bs)
    | _, _, _ => none
  | _ => none

/-- ASCII characters up to the closing quote, which ends the operand: no escapes (R68). -/
def parseAscii : List Char → Option (List Char)
  | ['"'] => some []
  | '"' :: _ => none
  | c :: rest => if c.toNat < 128 then (parseAscii rest).map (c :: ·) else none
  | [] => none

/-- A decimal count and the closing parenthesis, which ends the operand. -/
def parseCount (cs : List Char) : Option Nat :=
  match cs.reverse with
  | ')' :: d :: ds => digitsValue 10 0 (d :: ds).reverse
  | _ => none

/-- A payload operand (R68). -/
def parsePayload : List Char → Option PayloadText
  | '"' :: cs => (parseAscii cs).map .ascii
  | 'x' :: '"' :: cs => (parseHexPairs cs).map .hex
  | 'r' :: 'a' :: 'm' :: 'p' :: '(' :: cs => (parseCount cs).map .ramp
  | 'z' :: 'e' :: 'r' :: 'o' :: 's' :: '(' :: cs => (parseCount cs).map .zeros
  | _ => none

/-- The line without its comment: from `;` to the end, a `;` inside a quoted payload being a character
of the payload (R68; log entry 8). -/
def dropComment (quoted : Bool) : List Char → List Char
  | [] => []
  | c :: rest =>
    if c = ';' ∧ quoted = false then []
    else c :: dropComment (if c = '"' then !quoted else quoted) rest

/-- Spaces removed at both ends. -/
def trim (cs : List Char) : List Char :=
  ((cs.dropWhile (· = ' ')).reverse.dropWhile (· = ' ')).reverse

/-- The mnemonic and the operand of a line (R68). -/
def splitLine (cs : List Char) : List Char × List Char :=
  let t := trim (dropComment false cs)
  (t.takeWhile (· ≠ ' '), trim (t.dropWhile (· ≠ ' ')))

/-- A mnemonic that takes no operand (R68, R69). -/
def bareLine (name : List Char) : Option AsmLine :=
  if name = "NOP".toList then some (.command .nop)
  else if name = "TGEN".toList then some (.command .tgen)
  else if name = "PROBE".toList then some (.command .probe)
  else if name = "RESET".toList then some (.command .reset)
  else if name = "SUM".toList then some (.command .sum)
  else if name = "SIZE".toList then some (.command .size)
  else if name = "BLKSIZE".toList then some (.command .blksize)
  else if name = "RDSTATE".toList then some (.command .rdstate)
  else if name = "NEW".toList then some .new
  else if name = "FORCETABLE".toList then some .forcetable
  else if name = "FORCEFOLD".toList then some .forcefold
  else if name = "RDSTAT".toList then some .rdstat
  else none

/-- A mnemonic with its operand (R68, R69). -/
def operandLine (name operand : List Char) : Option AsmLine :=
  if name = "UPDATE".toList then (parsePayload operand).map .update
  else if name = "CHECKSUM".toList then (parsePayload operand).map .checksum
  else if name = "HASH".toList then (parsePayload operand).map .hash
  else if name = "WRSTATE".toList then (parseWord operand).map fun w => .command (.wrstate w)
  else if name = ".word".toList ∧ operand.length = 18 then (parseWord operand).map .word
  else if name = "SETCAP".toList ∧ operand = ['0'] then some (.command (.setcap false))
  else if name = "SETCAP".toList ∧ operand = ['1'] then some (.command (.setcap true))
  else none

/-- One line of text (R68). -/
def parseLine (cs : List Char) : Option AsmLine :=
  match splitLine cs with
  | (name, []) => bareLine name
  | (name, operand) => operandLine name operand

/-- The frames of a line of text, or none where it is no line of R68 or its payload is not encodable (log
entry 21). -/
def assemble (text : String) : Option (List Frame) :=
  match parseLine text.toList with
  | some line => if line.encodable then some line.frames else none
  | none => none

end Sys2Proof.Machine
end

