-- ==== Sys2Proof/Safety.lean ====
section
/-! DEFINITION. What the claims speak of: the invariant of every reachable state (spec/10_state.md R32),
runs of the engine and its host, the effect of a fault written out (spec/60_exceptions.md R151), the
frames of a stream (spec/44_host_commands.md R139), and the polynomial reading of words (spec/00_scope.md
section 4). -/

namespace Sys2Proof.Machine

/-! ## The invariant -/

/-- Every entry of the table RAM has the value of R81 and R83 (spec/10_state.md R23, R32 (ii)). -/
def State.TableBuilt (s : State) : Prop :=
  ∀ (k : Nat) (i : Byte), k < tableCount Config.slice8 → s.T.read (k * 256 + i.toNat) = sliceTab k i

/-- The table RAM lists nothing outside its KT * 256 entries (spec/20_memory.md R40). -/
def State.TableInRange (s : State) : Prop :=
  ∀ a, tableCount Config.slice8 * 256 ≤ a → s.T.read a = Memory.unlisted

/-- The invariant: the clauses of R32 that speak of one state, and the form of the data. -/
structure State.Inv (s : State) : Prop where
  /-- The table RAM keeps its canonical form. -/
  canonical : s.T.wf = true
  /-- It has KT * 256 entries (R40). -/
  inRange : s.TableInRange
  /-- R32 (ii): TV = 1 implies every entry is the generated one. -/
  built : s.TV = true → s.TableBuilt
  /-- R32 (i): READY = 1 implies TV = 1 and CAPV = 1. -/
  booted : s.READY = true → s.TV = true ∧ s.CAPV = true
  /-- R32 (iii): ILL = 0 implies CAUSE = 0. -/
  noCause : s.ILL = false → s.CAUSE = 0
  /-- A taken fault left a cause code, which is never 0 (spec/60_exceptions.md R150). -/
  cause : s.ILL = true → s.CAUSE ≠ 0
  /-- There are NLANES accumulators (R28). -/
  lanes : s.ACC.length = Config.nlanes.count

/-- The states that the engine's steps and the host's moves reach from hardware reset, whatever the host
does with the ports and pins. -/
inductive Reachable : State → Prop where
  | reset : Reachable State.reset
  | step {s t : State} : Reachable s → Machine.step s = .next t → Reachable t
  | host {s : State} (m : HostMove) : Reachable s → Reachable (m.apply s)

/-- The states reached since a hardware reset that found the strap pin at `strap`, with no hardware reset
in between; `State.reset` is such a state. -/
inductive SinceReset (strap : Bool) : State → Prop where
  | launch : State.reset.testen = strap → SinceReset strap State.reset
  | reset {s t : State} : s.rst = true → s.testen = strap → Machine.step s = .next t → SinceReset strap t
  | step {s t : State} : SinceReset strap s → s.rst = false → Machine.step s = .next t → SinceReset strap t
  | host {s : State} (m : HostMove) : SinceReset strap s → SinceReset strap (m.apply s)

/-- The states reached since the PROBE of boot sampled `cap_in` at `sampled`, with no hardware reset in
between. -/
inductive SinceProbe (sampled : Bool) : State → Prop where
  | probe {s t : State} : s.rst = false → s.READY = false → s.CAPV = false → s.capIn = sampled →
      Machine.step s = .next t → t.CAPV = true → SinceProbe sampled t
  | step {s t : State} : SinceProbe sampled s → s.rst = false → Machine.step s = .next t → SinceProbe sampled t
  | host {s : State} (m : HostMove) : SinceProbe sampled s → SinceProbe sampled (m.apply s)

/-- The engine accepts frames: `rst` released, boot complete (spec/30_encoding.md R60). -/
def State.Accepting (s : State) : Prop := s.rst = false ∧ s.READY = true

/-- The engine is between frames and nothing waits on its input ports. -/
def State.Idle (s : State) : Prop := s.Accepting ∧ s.cmdPort = [] ∧ s.dataPort = []

/-! ## The effect of a fault, written out -/

/-- `s` after `raise Ill(code)` for a frame of `words` command-port words and `bytes` payload bytes, field
by field as R151 lists them. -/
def State.faulted (s : State) (code : BitVec 2) (words bytes : Nat) : State :=
  { s with
    CAUSE := if s.ILL then s.CAUSE else code
    ILL := true
    cmdPort := s.cmdPort.drop words
    dataPort := s.dataPort.drop bytes
    respPort := s.respPort ++
      [⟨0, State.stat { s with CAUSE := if s.ILL then s.CAUSE else code, ILL := true }, []⟩]
    cidx := s.cidx + 1 }

/-- "Exceptions: `Ill(2)`" of a command whose format requires ARG = 0 and LEN = 0: a supplied frame of
OPC `opc` with a non-zero field raises Ill(2). -/
def FieldFault (opc : BitVec 8) (words : Nat) : Prop :=
  ∀ (s : State) (cw : Word) (rest : List Word), s.Accepting → s.cmdPort = cw :: rest → opcField cw = opc →
    argField cw ≠ 0 ∨ lenField cw ≠ 0 → words ≤ s.cmdPort.length →
    step s = .next (s.faulted 2 words 0)

/-- "Exceptions: `Ill(2)` if ARG is non-zero" of the FL command of OPC `opc`: the payload is consumed and
discarded. -/
def PayloadFieldFault (opc : BitVec 8) : Prop :=
  ∀ (s : State) (cw : Word) (rest : List Word), s.Accepting → s.cmdPort = cw :: rest → opcField cw = opc →
    argField cw ≠ 0 → (lenField cw).toNat ≤ s.dataPort.length →
    step s = .next (s.faulted 2 1 (lenField cw).toNat)

/-- A ready engine with the words `ws` at the head of its command port runs the command `i`: the encoding of
`i` is `ws` (spec/30_encoding.md R64). -/
def WordsRun (ws : List Word) (i : Instr) : Prop :=
  ∀ (s : State) (rest : List Word), s.Accepting → s.cmdPort = ws ++ rest → step s = exec i s

/-! ## Streams -/

/-- One chunk of a stream: its bytes, and a SETCAP the host may send before it. -/
structure Chunk where
  setcap : Option Bool
  bytes : List Byte
deriving DecidableEq, Repr

/-- The frames of a chunk. -/
def Chunk.frames (c : Chunk) : List Frame :=
  (c.setcap.toList.map fun v => Frame.of (.setcap v)) ++ [Frame.update c.bytes]

/-- `RESET; UPDATE D1; ...; UPDATE Dn; SUM` (spec/44_host_commands.md R139), with a SETCAP before a chunk
where the host sends one. -/
def streamFrames (cs : List Chunk) : List Frame :=
  Frame.of .reset :: (cs.flatMap Chunk.frames ++ [Frame.of .sum])

/-- The response to the last frame completed so far. -/
def State.lastResponse (s : State) : Option Response := s.respPort.getLast?

/-! ## The polynomial reading (spec/00_scope.md section 4) -/

open Polynomial

/-- `phi(w) = sum of w[i] * x^(63-i)`. -/
noncomputable def phi (w : Word) : (ZMod 2)[X] :=
  ∑ i ∈ Finset.range 64, if w.getLsbD i then X ^ (63 - i) else 0

/-- `Phi(A) = sum of A[i] * x^(127-i)`. -/
noncomputable def lanePhi (A : Lane) : (ZMod 2)[X] :=
  ∑ i ∈ Finset.range 128, if A.getLsbD i then X ^ (127 - i) else 0

/-- `beta(b) = sum of b[i] * x^(7-i)`. -/
noncomputable def beta (b : Byte) : (ZMod 2)[X] :=
  ∑ i ∈ Finset.range 8, if b.getLsbD i then X ^ (7 - i) else 0

/-- `delta(D) = sum of beta(D[j]) * x^(8(n-1-j))`: the first byte holds the highest degrees. -/
noncomputable def delta : List Byte → (ZMod 2)[X]
  | [] => 0
  | b :: rest => beta b * X ^ (8 * rest.length) + delta rest

/-- `P(x) = x^64 + sum of POLY_N[i] * x^i` (R4). -/
noncomputable def polyP : (ZMod 2)[X] :=
  X ^ 64 + ∑ i ∈ Finset.range 64, if POLY_N.getLsbD i then X ^ i else 0

/-- The bytes of a word, least significant first. -/
def wordBytes (w : Word) : List Byte := (List.range 8).map fun k => byteOf w k

/-- The sixteen bytes of a lane, least significant first. -/
def laneBytes (A : Lane) : List Byte := (List.range 16).map fun k => A.extractLsb' (8 * k) 8

/-- The step of the non-reflected register: most significant bit first, with POLY_N
(spec/40_table_generator.md R81). -/
def normalStep (c : Word) : Word := if c.getLsbD 63 then (c <<< 1) ^^^ POLY_N else c <<< 1

/-- The non-reflected table entry of an index: eight such steps from the index in the top byte. -/
def normalEntry (i : Byte) : Word := (List.range 8).foldl (fun c _ => normalStep c) (i.setWidth 64 <<< 56)

/-- Eight one-bit steps `c <- BITSTEP(c xor bit)` with the bits of a byte, least significant first
(spec/40_table_generator.md R84 (d)). -/
def bitFeed (s : Word) (b : Byte) : Word :=
  (List.range 8).foldl (fun c i => bitStep (c ^^^ (BitVec.ofBool (b.getLsbD i)).setWidth 64)) s

end Sys2Proof.Machine
end

