-- ==== Sys2Proof/Certificates/Slice0/Obligations.lean ====
section
/-! DEFINITION. The statements for the provers, one per rule or group of rules of spec/. Every statement
holds for all values of the opaque constants of Config: NLANES, SLICE8, the launch levels of the pins and
the content of the accumulators between commands. -/

open Sys2Proof Sys2Proof.Machine
open Polynomial

/-! ## Encoding -/

/-- R61, R64: decoding an encoded well-formed command gives it back, with every operand, whatever follows it on the
command port. -/
def Obligations.DecodeInvertsEncode : Prop :=
  ∀ (i : Instr) (rest : List Word), i.wellFormed = true →
    decode (encode i ++ rest) = .ok i ∧ (encode i).length = i.extent.words

/-- R61, R62, R64: whatever decodes is well formed and is the encoding of what it decodes to. -/
def Obligations.EncodeInvertsDecode : Prop :=
  ∀ (ws : List Word) (i : Instr), decode ws = .ok i →
    i.wellFormed = true ∧ ws.take i.extent.words = encode i

/-- R64: a word selects a row of the opcode map exactly when it decodes (its operand word given) to that row's
command; no word selects two rows. -/
def Obligations.DecodeSelectsTheRow : Prop :=
  (∀ r ∈ opcodeRows, ∀ (cw opw : Word) (rest : List Word),
    r.selects cw = true ↔ ∃ i, decode (cw :: opw :: rest) = .ok i ∧ i.mnemonic = r.mnemonic) ∧
  (∀ r ∈ opcodeRows, ∀ r' ∈ opcodeRows, ∀ cw : Word, r.selects cw = true → r'.selects cw = true → r = r')

/-- The twelve assigned values of OPC, as R150 lists them. -/
def Sys2Proof.assignedOpcodes : List (BitVec 8) :=
  [0x00, 0x01, 0x02, 0x03, 0x10, 0x11, 0x12, 0x13, 0x14, 0x15, 0x16, 0x17]

/-- R65: a word that selects no row is illegal; its cause is 1 when OPC is not assigned, whatever the other fields
are, and 2 when OPC is assigned. -/
def Obligations.IllegalWordCauses : Prop :=
  ∀ (cw opw : Word) (rest : List Word),
    (decode (cw :: opw :: rest) = .error .illOpc ↔ opcField cw ∉ assignedOpcodes) ∧
    (decode (cw :: opw :: rest) = .error .illField ↔
      opcField cw ∈ assignedOpcodes ∧ ∀ r ∈ opcodeRows, r.selects cw = false)

/-- Words of spec/95_test_vectors.md section 7.1, written out. -/
def Obligations.SampleWordsDecode : Prop :=
  decode [0x0000000000000000] = .ok .nop ∧ decode [0x0100000000000000] = .ok .tgen ∧
  decode [0x0301000000000000] = .ok (.setcap true) ∧ decode [0x0300000000000000] = .ok (.setcap false) ∧
  decode [0x1100FFFFFFFFFFFF] = .ok (.update 281474976710655) ∧
  decode [0x13000000000F4240] = .ok (.checksum 1000000) ∧
  decode [0x1700000000000000, 0x0123456789ABCDEF] = .ok (.wrstate 0x0123456789ABCDEF) ∧
  decode [0xFF00000000000005] = .error .illOpc ∧ decode [0x0302000000000000] = .error .illField ∧
  decode [0x1101000000000003] = .error .illField

/-- R62: the extent of a frame is decided by OPC alone, legal or not: OPC 0x11 and 0x13 claim LEN payload bytes,
0x17 one operand word, every other value the command word alone. -/
def Obligations.FrameExtentByOpcAlone : Prop :=
  ∀ (s : State) (cw : Word) (rest : List Word), s.Accepting → s.cmdPort = cw :: rest →
    ((opcField cw = 0x11 ∨ opcField cw = 0x13) → (lenField cw).toNat ≤ s.dataPort.length →
      ∃ t, step s = .next t ∧ t.cmdPort = rest ∧ t.dataPort = s.dataPort.drop (lenField cw).toNat ∧
        t.cidx = s.cidx + 1) ∧
    (opcField cw = 0x17 → ∀ (opw : Word) (rest' : List Word), rest = opw :: rest' →
      ∃ t, step s = .next t ∧ t.cmdPort = rest' ∧ t.dataPort = s.dataPort ∧ t.cidx = s.cidx + 1) ∧
    (opcField cw ≠ 0x11 → opcField cw ≠ 0x13 → opcField cw ≠ 0x17 →
      ∃ t, step s = .next t ∧ t.cmdPort = rest ∧ t.dataPort = s.dataPort ∧ t.cidx = s.cidx + 1)

/-! ## The step -/

/-- A step of an accepting engine whose command port begins with the words of a command runs that command. -/
def Obligations.StepRunsDecodedCommand : Prop :=
  ∀ (s : State) (i : Instr) (rest : List Word), s.Accepting → i.wellFormed = true →
    s.cmdPort = encode i ++ rest → step s = exec i s

/-- R150, R151, R67 ("No command fails"): no step stops, in any state. -/
def Obligations.NoStepStops : Prop :=
  ∀ s : State, ∃ t, step s = .next t

/-- R30, R67: a step completes at most one frame; a completed frame adds exactly one response, whose STAT is the
status after the command's writes, and adds 1 to `cidx`; any other step adds neither. -/
def Obligations.OneResponsePerFrame : Prop :=
  ∀ s t : State, s.rst = false → step s = .next t →
    (t.cidx = s.cidx ∧ t.respPort = s.respPort) ∨
    (t.cidx = s.cidx + 1 ∧ ∃ r : Response, t.respPort = s.respPort ++ [r] ∧ r.stat = t.stat)

/-- R157, R159, R62: with an empty command port the engine is idle and holds its state (R157), and it waits, with no
effect, for the payload of a legal FL frame (R159). Two of the waits are the model's own reading of a frame's extent
(R62): an OPC 0x17 word waits for its operand word as an FL word does for its payload (DEDUCED: log entry 10), and an
illegal frame waits for all that it claims before it is answered (DESIGN CHOICE: log entry 11). -/
def Obligations.IdleOrWaitingHoldsState : Prop :=
  (∀ s : State, s.Accepting → s.cmdPort = [] → step s = .next s) ∧
  (∀ (s : State) (cw : Word) (rest : List Word), s.Accepting → s.cmdPort = cw :: rest →
    opcField cw = 0x11 ∨ opcField cw = 0x13 → s.dataPort.length < (lenField cw).toNat → step s = .next s) ∧
  (∀ (s : State) (cw : Word), s.Accepting → s.cmdPort = [cw] → opcField cw = 0x17 → step s = .next s)

/-! ## Reset and boot -/

/-- R33: the values immediately after hardware reset and, three steps of boot later, in the launch state. (T and ACC
are unspecified after reset: nothing is claimed of them there.) -/
def Obligations.ResetAndLaunchValues : Prop :=
  (State.reset.S = 0xFFFFFFFFFFFFFFFF ∧ State.reset.TV = false ∧ State.reset.CAP = false ∧
    State.reset.CAPV = false ∧ State.reset.TESTEN = State.reset.testen ∧ State.reset.ILL = false ∧
    State.reset.CAUSE = 0 ∧ State.reset.READY = false ∧ State.reset.cidx = 0) ∧
  ∃ t : State, core.run 3 State.reset = .next t ∧
    t.S = 0xFFFFFFFFFFFFFFFF ∧ t.TableBuilt ∧ t.TV = true ∧ t.CAP = State.reset.capIn ∧ t.CAPV = true ∧
    t.TESTEN = State.reset.testen ∧ t.ILL = false ∧ t.CAUSE = 0 ∧ t.READY = true ∧ t.cidx = 0

/-- R172: boot is TGEN, PROBE, READY <- 1, one after the other, with no response and without advancing `cidx`. -/
def Obligations.BootSequence : Prop :=
  ∀ s : State, s.rst = false → s.READY = false → s.TV = false → s.CAPV = false → s.T.wf = true →
    ∃ T : Memory, (∀ (k : Nat) (i : Byte), k < tableCount Config.slice8 → T.read (k * 256 + i.toNat) = sliceTab k i) ∧
      step s = .next { s with T := T, TV := true } ∧
      step { s with T := T, TV := true } =
        .next { s with T := T, TV := true, CAP := s.capIn, CAPV := true } ∧
      step { s with T := T, TV := true, CAP := s.capIn, CAPV := true } =
        .next { s with T := T, TV := true, CAP := s.capIn, CAPV := true, READY := true }

/-- R173: while READY = 0 no word is accepted and nothing is lost; boot lifts the hold within three steps, and then
TV = 1 and CAPV = 1. -/
def Obligations.HoldUntilReady : Prop :=
  ∀ s : State, s.rst = false → s.READY = false →
    (∀ t, step s = .next t → t.cmdPort = s.cmdPort ∧ t.dataPort = s.dataPort ∧ t.respPort = s.respPort ∧
      t.cidx = s.cidx ∧ t.ILL = s.ILL ∧ t.S = s.S) ∧
    ∃ n, n ≤ 3 ∧ ∃ t : State, core.run n s = .next t ∧ t.READY = true ∧ t.TV = true ∧ t.CAPV = true ∧
      t.cmdPort = s.cmdPort ∧ t.dataPort = s.dataPort ∧ t.respPort = s.respPort ∧ t.cidx = s.cidx

/-- R170: while `rst` is asserted the registers take the values of R33, `testen` is latched, READY = 0 and no
response is produced; and a reset is the only event that clears ILL, CAUSE, TV and CAPV. That the response port
is the same after the reset also says that responses not yet taken survive it, which is the model's choice (DESIGN
CHOICE: log entry 12). -/
def Obligations.HardwareReset : Prop :=
  (∀ s t : State, s.rst = true → step s = .next t →
    t.S = 0xFFFFFFFFFFFFFFFF ∧ t.TV = false ∧ t.CAP = false ∧ t.CAPV = false ∧ t.TESTEN = s.testen ∧
    t.ILL = false ∧ t.CAUSE = 0 ∧ t.READY = false ∧ t.cidx = 0 ∧ t.respPort = s.respPort) ∧
  (∀ s t : State, s.rst = false → step s = .next t →
    (s.ILL = true → t.ILL = true ∧ t.CAUSE = s.CAUSE) ∧ (s.TV = true → t.TV = true) ∧
    (s.CAPV = true → t.CAPV = true))

/-- R170: a reset in the middle of a frame abandons it: the command word accepted and the payload bytes taken for it
are gone, and no response is produced for it; this for an FL word whose payload is incomplete, and for an OPC 0x17
word whose operand word has not come. What of the ports counts as the frame in progress is the model's reading
(DESIGN CHOICE: log entry 6). R170 says only that no response is produced for the abandoned frame; that the
responses not yet taken survive the reset is the model's choice too (DESIGN CHOICE: log entry 12). -/
def Obligations.ResetAbandonsFrame : Prop :=
  (∀ (s : State) (cw : Word) (rest : List Word), s.rst = true → s.READY = true → s.cmdPort = cw :: rest →
    (opcField cw = 0x11 ∨ opcField cw = 0x13) → s.dataPort.length < (lenField cw).toNat →
    ∃ t, step s = .next t ∧ t.cmdPort = rest ∧ t.dataPort = [] ∧ t.respPort = s.respPort ∧ t.READY = false) ∧
  ∀ (s : State) (cw : Word), s.rst = true → s.READY = true → s.cmdPort = [cw] → opcField cw = 0x17 →
    ∃ t, step s = .next t ∧ t.cmdPort = [] ∧ t.dataPort = s.dataPort ∧ t.respPort = s.respPort ∧ t.READY = false

/-! ## Status and faults -/

/-- R27: the layout of STAT; ILL is sticky and CAUSE keeps the first cause since reset, 0 while ILL = 0; READY stays
1 once boot has completed. -/
def Obligations.StatusFields : Prop :=
  (∀ s : State, s.stat.getLsbD 0 = s.READY ∧ s.stat.getLsbD 1 = s.TV ∧ s.stat.getLsbD 2 = s.CAPV ∧
    s.stat.getLsbD 3 = s.CAP ∧ s.stat.getLsbD 4 = s.TESTEN ∧ s.stat.getLsbD 5 = s.ILL ∧
    s.stat.extractLsb' 6 2 = s.CAUSE) ∧
  (∀ s t : State, s.rst = false → step s = .next t →
    (s.ILL = true → t.ILL = true ∧ t.CAUSE = s.CAUSE) ∧
    (s.ILL = false → t.ILL = true → t.CAUSE = 1 ∨ t.CAUSE = 2 ∨ t.CAUSE = 3) ∧
    (s.READY = true → t.READY = true)) ∧
  (∀ s : State, Reachable s → s.ILL = false → s.CAUSE = 0)

/-- R151, R152: an illegal frame, once supplied, is consumed whole and has the effect of `raise Ill(c)` and no
other: cause 1 for an unassigned OPC, cause 2 for an assigned OPC with a non-zero must-be-zero field, cause 3 for a
word of the SETCAP row while TESTEN = 0. The next frame is accepted as before. -/
def Obligations.IllegalFrameFaults : Prop :=
  ∀ (s : State) (cw : Word) (rest : List Word), s.Accepting → s.cmdPort = cw :: rest →
    (frameExtent cw).words ≤ s.cmdPort.length → (frameExtent cw).bytes ≤ s.dataPort.length →
    (opcField cw ∉ assignedOpcodes →
      step s = .next (s.faulted 1 (frameExtent cw).words (frameExtent cw).bytes)) ∧
    (opcField cw ∈ assignedOpcodes → (∀ r ∈ opcodeRows, r.selects cw = false) →
      step s = .next (s.faulted 2 (frameExtent cw).words (frameExtent cw).bytes)) ∧
    (opcField cw = 0x03 → argHighField cw = 0 → lenField cw = 0 → s.TESTEN = false →
      step s = .next (s.faulted 3 1 0)) ∧
    ∀ t, step s = .next t → t.Accepting

/-- R150, R152: a legal command raises nothing, for any payload content or length, except SETCAP with TESTEN = 0;
SETCAP with a non-zero must-be-zero field reports cause 2, whatever TESTEN is, and a reserved opcode cause 1
whatever its other fields are; a later fault leaves CAUSE as it was. -/
def Obligations.FaultCausesAndPriority : Prop :=
  (∀ (i : Instr) (s t : State), exec i s = .next t → s.ILL = false → t.ILL = true →
    s.TESTEN = false ∧ ∃ v, i = .setcap v) ∧
  ∀ (s t : State) (cw : Word) (rest : List Word), s.Accepting → s.cmdPort = cw :: rest → step s = .next t →
    (opcField cw = 0x03 → argHighField cw ≠ 0 ∨ lenField cw ≠ 0 → s.ILL = false → t.ILL = true ∧ t.CAUSE = 2) ∧
    (opcField cw = 0x03 → argHighField cw = 0 → lenField cw = 0 → s.TESTEN = false → s.ILL = false →
      t.ILL = true ∧ t.CAUSE = 3) ∧
    (opcField cw ∉ assignedOpcodes → s.ILL = false → t.ILL = true ∧ t.CAUSE = 1) ∧
    (s.ILL = true → t.CAUSE = s.CAUSE)

/-- R26, R155: TESTEN is latched at hardware reset and constant until the next one, so no step enters or leaves a
mode; SETCAP takes effect in test mode and raises Ill(3) in production mode; and the two modes differ only in
SETCAP: any other command, run in the same state with TESTEN set to either value, ends in the same state but for
TESTEN itself and its bit in the response's STAT. -/
def Obligations.ModesDifferOnlyInSetcap : Prop :=
  (∀ s t : State, step s = .next t →
    (s.rst = true → t.TESTEN = s.testen) ∧ (s.rst = false → t.TESTEN = s.TESTEN)) ∧
  (∀ (s : State) (v : Bool),
    (s.TESTEN = true → ∃ t, exec (.setcap v) s = .next t ∧ t.CAP = v ∧ t.ILL = s.ILL ∧ t.CAUSE = s.CAUSE) ∧
    (s.TESTEN = false → exec (.setcap v) s = .next (s.faulted 3 1 0))) ∧
  ∀ (i : Instr) (s : State) (b : Bool), (∀ v, i ≠ .setcap v) →
    ∃ t t' : State, exec i s = .next t ∧ exec i { s with TESTEN := b } = .next t' ∧
      { t' with TESTEN := t.TESTEN, respPort := t.respPort } = t ∧ t'.TESTEN = b ∧
      t'.respPort.map (fun r => (r.val, r.stat &&& 0xEF, r.dout)) =
        t.respPort.map (fun r => (r.val, r.stat &&& 0xEF, r.dout))

/-! ## TGEN -/

/-- R82: TGEN builds the table once; when TV = 1 it writes nothing. -/
def Obligations.TgenBuildsTableOnce : Prop :=
  (∀ s : State, s.TV = false → s.T.wf = true → ∃ T : Memory,
    exec .tgen s = .next
      { s with
        T := T, TV := true, cmdPort := s.cmdPort.drop 1, cidx := s.cidx + 1
        respPort := s.respPort ++ [⟨0, State.stat { s with TV := true }, []⟩] } ∧
    T.wf = true ∧
    (∀ (k : Nat) (i : Byte), k < tableCount Config.slice8 → T.read (k * 256 + i.toNat) = sliceTab k i) ∧
    (∀ a, tableCount Config.slice8 * 256 ≤ a → T.read a = s.T.read a)) ∧
  (∀ s : State, s.TV = true →
    exec .tgen s = .next
      { s with
        cmdPort := s.cmdPort.drop 1, cidx := s.cidx + 1, respPort := s.respPort ++ [⟨0, s.stat, []⟩] }) ∧
  FieldFault 0x01 1 ∧
  WordsRun [0x0100000000000000] .tgen

/-- R80: BITSTEP shifts right and xors POLY_R when bit 0 was set; `phi(BITSTEP(c)) = (phi(c) * x) mod P`. -/
def Obligations.BitStepMultipliesByX : Prop :=
  (∀ c : Word, bitStep c = if c.getLsbD 0 = true then (c >>> 1) ^^^ 0x9A6C9329AC4BC9B5 else c >>> 1) ∧
  (∀ c : Word, phi (bitStep c) = (phi c * X) %ₘ polyP) ∧
  bitStep 0 = 0 ∧ bitStep 1 = 0x9A6C9329AC4BC9B5 ∧ bitStep 2 = 1 ∧
  bitStep 0xFFFFFFFFFFFFFFFF = 0xE5936CD653B4364A ∧
  (∀ c : Word, (bitStep c).getLsbD 63 = true ↔ c.getLsbD 0 = true)

/-- R81: TABENTRY(i) is eight BITSTEPs from the index; `phi(TABENTRY(i)) = (beta(i) * x^64) mod P`; and it is the
bit-reversed non-reflected entry of the bit-reversed index. -/
def Obligations.TableEntryIsRemainder : Prop :=
  (∀ i : Byte, tabEntry i =
    bitStep (bitStep (bitStep (bitStep (bitStep (bitStep (bitStep (bitStep (i.setWidth 64))))))))) ∧
  (∀ i : Byte, phi (tabEntry i) = (beta i * X ^ 64) %ₘ polyP) ∧
  (∀ i : Byte, tabEntry i = (normalEntry i.reverse).reverse) ∧
  tabEntry 0 = 0 ∧ tabEntry 1 = 0x7F6EF0C830358979 ∧ tabEntry 128 = 0x9A6C9329AC4BC9B5 ∧
  tabEntry 255 = 0x2ADA5047EFEC8728 ∧
  [1, 2, 3, 4, 5, 6, 7, 8].map (fun n => bitStep^[n] 1) =
    [0x9A6C9329AC4BC9B5, 0xD75ADABD7A6E2D6F, 0xF1C1FE77117CDF02, 0x78E0FF3B88BE6F81,
     0xA61CECB46814FE75, 0xC962E5739841B68F, 0xFEDDE190606B12F2, 0x7F6EF0C830358979] ∧
  [1, 2, 3, 4, 5, 6, 7].map (fun n => bitStep^[n] 128) = [0x40, 0x20, 0x10, 0x08, 0x04, 0x02, 0x01]

/-- R83: the recurrence of the slicing tables; `phi(SLICETAB(k, i)) = (beta(i) * x^(64+8k)) mod P`, and SLICETAB(k,
i) is REFUPD from state 0 of the byte i followed by k zero bytes. -/
def Obligations.SliceEntriesAdvanceByZeroBytes : Prop :=
  (∀ (k : Nat) (i : Byte), sliceTab 0 i = tabEntry i ∧
    sliceTab (k + 1) i = tabEntry ((sliceTab k i).extractLsb' 0 8) ^^^ (sliceTab k i >>> 8) ∧
    phi (sliceTab k i) = (beta i * X ^ (64 + 8 * k)) %ₘ polyP ∧
    sliceTab k i = refUpd tabValue 0 (i :: List.replicate k 0)) ∧
  sliceTab 1 1 = 0x8776A97D73BDDF69 ∧ sliceTab 7 1 = 0x21E9761E252621AC ∧ sliceTab 7 255 = 0x4B6C30A789F1084B

/-- R84: T[0][0] = 0; T[0][128] = POLY_R; the table is linear over xor, so the xor of all its entries is 0; the byte
step equals eight one-bit steps with the bits of the byte, least significant first. -/
def Obligations.TableProperties : Prop :=
  tabEntry 0 = 0 ∧ tabEntry 128 = 0x9A6C9329AC4BC9B5 ∧
  (∀ a b : Byte, tabEntry (a ^^^ b) = tabEntry a ^^^ tabEntry b) ∧
  (List.range 256).foldl (fun x i => x ^^^ tabEntry (BitVec.ofNat 8 i)) 0 = 0 ∧
  (∀ i : Byte, tabEntry i = bitFeed 0 i) ∧
  (∀ (s : Word) (b : Byte), tabEntry (byteOf (s ^^^ b.setWidth 64) 0) ^^^ (s >>> 8) = bitFeed s b)

/-- R23: after TV = 1 no step changes the table RAM (short of a hardware reset), and it is the generated table in
every reachable state with TV = 1. -/
def Obligations.TableImmutable : Prop :=
  (∀ s t : State, s.rst = false → s.TV = true → step s = .next t → t.T = s.T) ∧
  (∀ s : State, Reachable s → s.TV = true → s.TableBuilt)

/-! ## REF -/

/-- R90: the byte step, read from the generated table, and its polynomial meaning `phi(REFSTEP(s, b)) = (phi(s) *
x^8 + beta(b) * x^64) mod P`. -/
def Obligations.RefStepAdvancesOneByte : Prop :=
  (∀ (s : Word) (b : Byte),
    refStep tabValue s b = tabEntry ((s ^^^ b.setWidth 64).extractLsb' 0 8) ^^^ (s >>> 8) ∧
    phi (refStep tabValue s b) = (phi s * X ^ 8 + beta b * X ^ 64) %ₘ polyP ∧
    refStep tabValue s (s.extractLsb' 0 8) = s >>> 8) ∧
  refStep tabValue 0 0x01 = 0x7F6EF0C830358979 ∧ refStep tabValue 0xFFFFFFFFFFFFFFFF 0x00 = 0x2A25AFB8101378D7 ∧
  refStep tabValue 0xFFFFFFFFFFFFFFFF 0x31 = 0xDC6A5E3CB9E4412D ∧
  refStep tabValue 0x0123456789ABCDEF 0xEF = 0x000123456789ABCD ∧
  refStep tabValue 0x0123456789ABCDEF 0x10 = 0x2ADB730288652CE5

/-- R91, R92: REFUPD takes the bytes in order, one REFSTEP each, and the empty sequence leaves the state; it
composes over concatenation; its result is the remainder `(phi(s) * x^(8n) + delta(D) * x^64) mod P`; it is linear
over xor; and for at least eight bytes the state may be xored into the first eight bytes instead. -/
def Obligations.RefUpdIsPolynomialRemainder : Prop :=
  (∀ (T : Table) (s : Word) (b : Byte) (D : List Byte),
    refUpd T s [] = s ∧ refUpd T s (b :: D) = refUpd T (refStep T s b) D) ∧
  (∀ (s : Word) (D E : List Byte), refUpd tabValue s (D ++ E) = refUpd tabValue (refUpd tabValue s D) E) ∧
  (∀ (s : Word) (D : List Byte),
    phi (refUpd tabValue s D) = (phi s * X ^ (8 * D.length) + delta D * X ^ 64) %ₘ polyP) ∧
  (∀ (s s' : Word) (D D' : List Byte), D.length = D'.length →
    refUpd tabValue (s ^^^ s') (List.zipWith (· ^^^ ·) D D') = refUpd tabValue s D ^^^ refUpd tabValue s' D') ∧
  (∀ (s : Word) (D E : List Byte), D.length = 8 →
    refUpd tabValue s (D ++ E) = refUpd tabValue 0 (List.zipWith (· ^^^ ·) D (wordBytes s) ++ E)) ∧
  refUpd tabValue 0xFFFFFFFFFFFFFFFF [0x31, 0x32, 0x33, 0x34, 0x35, 0x36, 0x37, 0x38, 0x39] = 0x5174EB79F5866777

/-- R94, R95: SLICE8UPD takes eight bytes per iteration, the first of them through T[7], and what remains byte at a
time; the slicing variant is bit-exact with the single-byte version, so REFPATH is REFUPD whatever SLICE8 is. -/
def Obligations.SliceBy8IsBitExact : Prop :=
  (∀ (T : Table) (s w : Word) (D : List Byte), 8 ≤ D.length → w = s ^^^ le64 D 0 →
    slice8Upd T s D = slice8Upd T
      (T.entry 7 (w.extractLsb' 0 8) ^^^ T.entry 6 (w.extractLsb' 8 8) ^^^ T.entry 5 (w.extractLsb' 16 8) ^^^
        T.entry 4 (w.extractLsb' 24 8) ^^^ T.entry 3 (w.extractLsb' 32 8) ^^^ T.entry 2 (w.extractLsb' 40 8) ^^^
        T.entry 1 (w.extractLsb' 48 8) ^^^ T.entry 0 (w.extractLsb' 56 8))
      (D.drop 8)) ∧
  (∀ (T : Table) (s : Word) (D : List Byte), D.length < 8 → slice8Upd T s D = refUpd T s D) ∧
  (∀ (T : Table) (s : Word) (D : List Byte),
    refPath true T s D = slice8Upd T s D ∧ refPath false T s D = refUpd T s D) ∧
  ∀ (s : Word) (D : List Byte), slice8Upd tabValue s D = refUpd tabValue s D ∧
    (∀ slice8 : Bool, refPath slice8 tabValue s D = refUpd tabValue s D) ∧
    slice8Upd tabValue 0xFFFFFFFFFFFFFFFF [0x31, 0x32, 0x33, 0x34, 0x35, 0x36, 0x37, 0x38] = 0x132F6F673D376B6B

/-! ## FOLD -/

/-- R100: result bit k is the xor over all i + j = k of `a[i] and b[j]`; the product is commutative, distributes
over xor in each argument, has bit 127 clear, spreads the bits of a square to the even positions, and
`Phi(CLMUL64(u, v)) = phi(u) * phi(v) * x`. -/
def Obligations.ClmulIsPolynomialProduct : Prop :=
  (∀ (a b : Word) (k : Nat), k < 128 → (clmul64 a b).getLsbD k =
    ((List.range (k + 1)).foldl (fun r i => r ^^ (a.getLsbD i && b.getLsbD (k - i))) false)) ∧
  (∀ a b : Word, clmul64 a b = clmul64 b a) ∧
  (∀ a b c : Word, clmul64 (a ^^^ b) c = clmul64 a c ^^^ clmul64 b c ∧
    clmul64 c (a ^^^ b) = clmul64 c a ^^^ clmul64 c b) ∧
  (∀ b : Word, clmul64 0 b = 0 ∧ clmul64 1 b = b.setWidth 128 ∧ clmul64 2 b = b.setWidth 128 <<< 1) ∧
  (∀ (a : Word) (k : Nat), (clmul64 a a).getLsbD (2 * k) = a.getLsbD k ∧
    (clmul64 a a).getLsbD (2 * k + 1) = false) ∧
  (∀ a b : Word, (clmul64 a b).getLsbD 127 = false) ∧
  (∀ a b : Word, lanePhi (clmul64 a b) = phi a * phi b * X) ∧
  clmul64 3 3 = 5 ∧ clmul64 0xFFFFFFFFFFFFFFFF 0xFFFFFFFFFFFFFFFF = 0x55555555555555555555555555555555 ∧
  clmul64 0x8000000000000000 0x8000000000000000 = 0x40000000000000000000000000000000 ∧
  clmul64 0xDEADBEEFCAFEBABE 0x0123456789ABCDEF = 0x00C42FDE8B6B5592F099825FE2AF618A

/-- R43, R101: payload words and lanes are loaded little-endian: byte t of the load is bits 8t+7:8t; a lane is
sixteen bytes, its low half the first eight, and `Phi(LE128(D, off)) = delta(D[off .. off+16))`. -/
def Obligations.LaneHoldsSixteenBytes : Prop :=
  (∀ (D : List Byte) (off : Nat), off + 8 ≤ D.length →
    ∀ t, t < 8 → (le64 D off).extractLsb' (8 * t) 8 = D.getD (off + t) 0) ∧
  ∀ (D : List Byte) (off : Nat), off + 16 ≤ D.length →
    laneLow (le128 D off) = le64 D off ∧ laneHigh (le128 D off) = le64 D (off + 8) ∧
    (∀ t, t < 16 → (le128 D off).extractLsb' (8 * t) 8 = D.getD (off + t) 0) ∧
    lanePhi (le128 D off) = delta ((D.drop off).take 16)

/-- R102: the fold constants have the printed values, which are `K(e) = refl_64(x^e mod P)` for their exponents, and
MU_R is the low 64 coefficients of floor(x^128 / P), reflected. -/
def Obligations.FoldConstantsAreReflectedPowers : Prop :=
  phi K127 = X ^ 127 %ₘ polyP ∧ phi K191 = X ^ 191 %ₘ polyP ∧
  (∀ nl : NLanes, phi (KLO_B nl) = X ^ (8 * nl.foldBlk - 1) %ₘ polyP ∧
    phi (KHI_B nl) = X ^ (8 * nl.foldBlk + 63) %ₘ polyP) ∧
  X ^ 64 + phi MU_R = X ^ 128 /ₘ polyP ∧ X ^ 64 + phi POLY_R = polyP ∧
  phi 1 = X ^ 63 %ₘ polyP ∧ phi POLY_R = X ^ 64 %ₘ polyP ∧ K127 = sliceTab 7 1 ∧
  K127 = 0x21E9761E252621AC ∧ K191 = 0xEADC41FD2BA3D420 ∧ MU_R = 0x13F67D194D77CFBB ∧
  POLY_R = 0x9A6C9329AC4BC9B5 ∧
  [NLanes.one, .two, .four, .eight].map KLO_B =
    [0x21E9761E252621AC, 0xE1E0BB9D45D7A44C, 0x62242240ACE5045A, 0x5F852FB61E8D92DC] ∧
  [NLanes.one, .two, .four, .eight].map KHI_B =
    [0xEADC41FD2BA3D420, 0xB0BC2E589204F500, 0x0C32CDB31E18A84A, 0xA1CA681E733F9C40]

/-- R103: with khi = K(t+63) and klo = K(t-1), FOLD128 multiplies by x^t modulo P; it is linear over xor. -/
def Obligations.FoldStepShifts : Prop :=
  (∀ (A : Lane) (khi klo : Word) (t : Nat), 1 ≤ t → phi khi = X ^ (t + 63) %ₘ polyP →
    phi klo = X ^ (t - 1) %ₘ polyP →
    lanePhi (fold128 A khi klo) %ₘ polyP = (lanePhi A * X ^ t) %ₘ polyP) ∧
  (∀ (A B : Lane) (khi klo : Word), fold128 (A ^^^ B) khi klo = fold128 A khi klo ^^^ fold128 B khi klo) ∧
  (∀ (A : Lane) (khi klo : Word),
    fold128 A khi klo = clmul64 (A.extractLsb' 0 64) khi ^^^ clmul64 (A.extractLsb' 64 64) klo) ∧
  (∀ khi klo : Word, fold128 0 khi klo = 0) ∧
  fold128 0x0F0E0D0C0B0A0908F8F9FAFBFCFDFEFF K191 K127 = 0x5AC9487C37B06864673511FB692F5280

/-- R104: the three multiplications of REDUCE128; it is linear over xor; `phi(REDUCE128(A)) = (Phi(A) * x^64) mod
P`, and REDUCE128(A) is REFUPD from state 0 of the sixteen bytes of A, least significant first. -/
def Obligations.ReduceIsPolynomialRemainder : Prop :=
  (∀ (A B U V : Lane) (BH Q : Word),
    B = clmul64 (A.extractLsb' 0 64) K127 ^^^ (A.extractLsb' 64 64).setWidth 128 → BH = B.extractLsb' 0 64 →
    U = clmul64 BH MU_R → Q = BH ^^^ (U.extractLsb' 0 64 <<< 1) → V = clmul64 Q POLY_R →
    reduce128 A = B.extractLsb' 64 64 ^^^ V.extractLsb' 63 64) ∧
  (∀ A B : Lane, reduce128 (A ^^^ B) = reduce128 A ^^^ reduce128 B) ∧
  (∀ A : Lane, phi (reduce128 A) = (lanePhi A * X ^ 64) %ₘ polyP ∧
    reduce128 A = refUpd tabValue 0 (laneBytes A)) ∧
  reduce128 0 = 0 ∧ reduce128 0x0F0E0D0C0B0A0908F8F9FAFBFCFDFEFF = 0x309BAB38A206A9DF

/-- R105, R110: the five steps of FOLDUPD. Below one block it is REFPATH; otherwise the accumulators start from the
first block with the state in the low half of lane 0, each further block folds every lane and adds its own, the
lanes are combined with (K191, K127) and reduced, and REFPATH takes the tail. -/
def Obligations.FolderFollowsItsSteps : Prop :=
  (∀ (nl : NLanes) (slice8 : Bool) (T : Table) (s : Word) (D : List Byte),
    (D.length < 16 * nl.count → foldUpd nl slice8 T s D = refPath slice8 T s D) ∧
    ∀ m : Nat, m = D.length / (16 * nl.count) → 1 ≤ m →
      foldUpd nl slice8 T s D = refPath slice8 T (reduce128 (combineLanes (foldBlocks nl s D m)))
        (D.drop (m * (16 * nl.count)))) ∧
  (∀ (nl : NLanes) (s : Word) (D : List Byte) (j : Nat), j < nl.count →
    (foldBlocks nl s D 1)[j]? = some (le128 D (16 * j) ^^^ if j = 0 then s.setWidth 128 else 0)) ∧
  (∀ (nl : NLanes) (s : Word) (D : List Byte) (m j : Nat) (a : Lane), 1 ≤ m → j < nl.count →
    (foldBlocks nl s D m)[j]? = some a →
    (foldBlocks nl s D (m + 1))[j]? =
      some (fold128 a (KHI_B nl) (KLO_B nl) ^^^ le128 D (m * (16 * nl.count) + 16 * j))) ∧
  (∀ a : Lane, combineLanes [a] = a) ∧
  ∀ (acc : List Lane) (a c : Lane), combineLanes (a :: acc ++ [c]) =
    fold128 (combineLanes (a :: acc)) K191 K127 ^^^ c

/-- R108: FOLDUPD equals REFUPD for every state, every payload and every NLANES (and SLICE8). -/
def Obligations.FolderEqualsReference : Prop :=
  ∀ (nl : NLanes) (slice8 : Bool) (s : Word) (D : List Byte),
    foldUpd nl slice8 tabValue s D = refUpd tabValue s D

/-! ## DISP -/

/-- R120: PROBE latches the oracle once and returns CAP; a later PROBE only reports CAP. -/
def Obligations.ProbeLatchesOracleOnce : Prop :=
  (∀ s : State, s.CAPV = false →
    exec .probe s = .next
      { s with
        CAP := s.capIn, CAPV := true, cmdPort := s.cmdPort.drop 1, cidx := s.cidx + 1
        respPort := s.respPort ++
          [⟨if s.capIn then 1 else 0, State.stat { s with CAP := s.capIn, CAPV := true }, []⟩] }) ∧
  (∀ s : State, s.CAPV = true →
    exec .probe s = .next
      { s with
        cmdPort := s.cmdPort.drop 1, cidx := s.cidx + 1
        respPort := s.respPort ++ [⟨if s.CAP then 1 else 0, s.stat, []⟩] }) ∧
  FieldFault 0x02 1 ∧
  WordsRun [0x0200000000000000] .probe

/-- R121: in test mode SETCAP V writes CAP and returns V; in production mode it raises Ill(3); a non-zero ARG[7:1]
or LEN is checked first and raises Ill(2). -/
def Obligations.SetcapWritesCapInTestMode : Prop :=
  (∀ (s : State) (v : Bool), s.TESTEN = true →
    exec (.setcap v) s = .next
      { s with
        CAP := v, cmdPort := s.cmdPort.drop 1, cidx := s.cidx + 1
        respPort := s.respPort ++ [⟨if v then 1 else 0, State.stat { s with CAP := v }, []⟩] }) ∧
  (∀ (s : State) (v : Bool), s.TESTEN = false → exec (.setcap v) s = .next (s.faulted 3 1 0)) ∧
  (∀ (s : State) (cw : Word) (rest : List Word), s.Accepting → s.cmdPort = cw :: rest → opcField cw = 0x03 →
    argHighField cw ≠ 0 ∨ lenField cw ≠ 0 → step s = .next (s.faulted 2 1 0)) ∧
  WordsRun [0x0300000000000000] (.setcap false) ∧ WordsRun [0x0301000000000000] (.setcap true)

/-- R122, R123: DISPATCH is FOLDUPD when CAP = 1 and REFPATH when CAP = 0; over the generated table it is REFUPD for
both values of CAP, every NLANES and both values of SLICE8, so none of them ever changes the value. -/
def Obligations.DispatchIsPathIndependent : Prop :=
  (∀ (s : State) (crc : Word) (D : List Byte),
    (s.CAP = true → s.dispatch crc D = foldUpd Config.nlanes Config.slice8 s.T.read crc D) ∧
    (s.CAP = false → s.dispatch crc D = refPath Config.slice8 s.T.read crc D)) ∧
  (∀ (cap : Bool) (nl : NLanes) (slice8 : Bool) (s : Word) (D : List Byte),
    Machine.dispatch cap nl slice8 tabValue s D = refUpd tabValue s D) ∧
  (∀ (s : State) (b : Bool) (crc : Word) (D : List Byte), s.Inv → s.TV = true →
    s.dispatch crc D = refUpd tabValue crc D ∧ State.dispatch { s with CAP := b } crc D = s.dispatch crc D)

/-- R124: with TESTEN = 0 and CAPV = 1 no step changes CAP or CAPV (short of a hardware reset); with any TESTEN only
SETCAP changes CAP, and the step that sets CAPV writes the pin's level; and no response but the CAP bit of STAT and
the VAL of PROBE and SETCAP tells the value of CAP: any other command, run in the same state with CAP set to either
value, leaves the same S and the same responses but for bit 3 of STAT. -/
def Obligations.CapIsStable : Prop :=
  (∀ s t : State, s.rst = false → s.CAPV = true → s.TESTEN = false → step s = .next t →
    t.CAP = s.CAP ∧ t.CAPV = true) ∧
  (∀ s t : State, s.rst = false → s.CAPV = true → step s = .next t → t.CAP ≠ s.CAP →
    s.TESTEN = true ∧ s.READY = true ∧ ∃ v, decode s.cmdPort = .ok (.setcap v) ∧ t.CAP = v) ∧
  (∀ s t : State, s.rst = false → s.CAPV = false → step s = .next t → t.CAPV = true → t.CAP = s.capIn) ∧
  ∀ (i : Instr) (s : State) (b : Bool), s.Inv → s.TV = true → i ≠ .probe → (∀ v, i ≠ .setcap v) →
    ∃ t t' : State, exec i s = .next t ∧ exec i { s with CAP := b } = .next t' ∧ t'.S = t.S ∧
      t'.respPort.map (fun r => (r.val, r.stat &&& 0xF7, r.dout)) =
        t.respPort.map (fun r => (r.val, r.stat &&& 0xF7, r.dout))

/-- R120, R159: a change of `cap_in` after the probe has no effect until the next hardware reset: the step is the
same but for the level of the pin itself. -/
def Obligations.CapInIgnoredAfterProbe : Prop :=
  ∀ (s t : State) (b : Bool), s.rst = false → s.CAPV = true → step s = .next t →
    step { s with capIn := b } = .next { t with capIn := b }

/-! ## HCL -/

/-- R130: NOP changes nothing and returns the status. -/
def Obligations.NopReturnsStatus : Prop :=
  (∀ s : State, exec .nop s = .next
    { s with
      cmdPort := s.cmdPort.drop 1, cidx := s.cidx + 1, respPort := s.respPort ++ [⟨0, s.stat, []⟩] }) ∧
  FieldFault 0x00 1 ∧
  WordsRun [0x0000000000000000] .nop ∧
  ∀ s : State, s.READY = true → s.TV = true → s.CAPV = true → s.CAP = true → s.TESTEN = false → s.ILL = false →
    s.CAUSE = 0 → s.stat = 0x0F

/-- R131: RESET loads INIT into S and touches nothing else; a second RESET leaves S, and a SUM after it gives eight
zero bytes. -/
def Obligations.ResetLoadsInit : Prop :=
  (∀ s : State, exec .reset s = .next
    { s with
      S := 0xFFFFFFFFFFFFFFFF, cmdPort := s.cmdPort.drop 1, cidx := s.cidx + 1
      respPort := s.respPort ++ [⟨0, s.stat, []⟩] }) ∧
  FieldFault 0x10 1 ∧
  WordsRun [0x1000000000000000] .reset ∧
  ∀ s t : State, exec .reset s = .next t →
    (∃ u, exec .reset t = .next u ∧ u.S = t.S) ∧
    ∃ u, exec .sum t = .next u ∧ u.lastResponse = some ⟨0, s.stat, [0, 0, 0, 0, 0, 0, 0, 0]⟩

/-- R122, R132: UPDATE consumes its payload, replaces S by DISPATCH(S, D), that is FOLDUPD when CAP = 1 and REFPATH
when CAP = 0, which over the generated table is REFUPD(S, D), and returns LEN; only S, the scratch accumulators (and
the model's draw counter) and the ports change. -/
def Obligations.UpdateAbsorbsPayload : Prop :=
  (∀ (s : State) (len : Nat), len ≤ s.dataPort.length → ∃ (acc : List Lane) (d : Nat),
    exec (.update len) s = .next
      { s with
        S := if s.CAP then foldUpd Config.nlanes Config.slice8 s.T.read s.S (s.dataPort.take len)
          else refPath Config.slice8 s.T.read s.S (s.dataPort.take len)
        ACC := acc, draws := d
        cmdPort := s.cmdPort.drop 1, dataPort := s.dataPort.drop len, cidx := s.cidx + 1
        respPort := s.respPort ++ [⟨BitVec.ofNat 64 len, s.stat, []⟩] } ∧
    (s.CAP = false ∨ len < 16 * Config.nlanes.count → acc = s.ACC) ∧
    (s.Inv → s.TV = true → s.dispatch s.S (s.dataPort.take len) = refUpd tabValue s.S (s.dataPort.take len))) ∧
  PayloadFieldFault 0x11 ∧
  (∀ len : Nat, len < 2 ^ 48 → WordsRun [0x1100000000000000 + BitVec.ofNat 64 len] (.update len)) ∧
  (∀ s : State, s.dispatch s.S [] = s.S) ∧
  (∀ (s : State) (b : Byte), s.Inv → s.TV = true → s.dispatch s.S [b] = refStep tabValue s.S b) ∧
  refUpd tabValue 0xFFFFFFFFFFFFFFFF [0x31, 0x32, 0x33, 0x34] = 0xD60A24181D008E2B ∧
  refUpd tabValue 0xD60A24181D008E2B [0x35, 0x36, 0x37, 0x38, 0x39] = 0x5174EB79F5866777

/-- R133, R44: SUM returns the complement of S and its eight bytes, most significant first; S itself is not written.
-/
def Obligations.SumReturnsDigest : Prop :=
  (∀ s : State, exec .sum s = .next
    { s with
      cmdPort := s.cmdPort.drop 1, cidx := s.cidx + 1
      respPort := s.respPort ++ [⟨~~~s.S, s.stat,
        [(~~~s.S).extractLsb' 56 8, (~~~s.S).extractLsb' 48 8, (~~~s.S).extractLsb' 40 8,
         (~~~s.S).extractLsb' 32 8, (~~~s.S).extractLsb' 24 8, (~~~s.S).extractLsb' 16 8,
         (~~~s.S).extractLsb' 8 8, (~~~s.S).extractLsb' 0 8]⟩] }) ∧
  FieldFault 0x12 1 ∧
  WordsRun [0x1200000000000000] .sum

/-- R134: CHECKSUM returns the complement of DISPATCH(INIT, D), which over the generated table is `not REFUPD(INIT,
D)`; S is neither read nor written. -/
def Obligations.ChecksumLeavesStream : Prop :=
  (∀ (s : State) (len : Nat), len ≤ s.dataPort.length → ∃ (acc : List Lane) (d : Nat),
    exec (.checksum len) s = .next
      { s with
        ACC := acc, draws := d
        cmdPort := s.cmdPort.drop 1, dataPort := s.dataPort.drop len, cidx := s.cidx + 1
        respPort := s.respPort ++
          [⟨~~~(s.dispatch 0xFFFFFFFFFFFFFFFF (s.dataPort.take len)), s.stat, []⟩] } ∧
    (s.CAP = false ∨ len < 16 * Config.nlanes.count → acc = s.ACC) ∧
    (s.Inv → s.TV = true → s.dispatch 0xFFFFFFFFFFFFFFFF (s.dataPort.take len) =
      refUpd tabValue 0xFFFFFFFFFFFFFFFF (s.dataPort.take len))) ∧
  PayloadFieldFault 0x13 ∧
  ∀ len : Nat, len < 2 ^ 48 → WordsRun [0x1300000000000000 + BitVec.ofNat 64 len] (.checksum len)

/-- R135: SIZE returns 8 in every state. -/
def Obligations.SizeIsEight : Prop :=
  (∀ s : State, exec .size s = .next
    { s with
      cmdPort := s.cmdPort.drop 1, cidx := s.cidx + 1, respPort := s.respPort ++ [⟨8, s.stat, []⟩] }) ∧
  FieldFault 0x14 1 ∧
  WordsRun [0x1400000000000000] .size

/-- R136: BLKSIZE returns 1 in every state. -/
def Obligations.BlksizeIsOne : Prop :=
  (∀ s : State, exec .blksize s = .next
    { s with
      cmdPort := s.cmdPort.drop 1, cidx := s.cidx + 1, respPort := s.respPort ++ [⟨1, s.stat, []⟩] }) ∧
  FieldFault 0x15 1 ∧
  WordsRun [0x1500000000000000] .blksize

/-- R137: RDSTATE returns S, uncomplemented, and writes nothing. -/
def Obligations.RdstateReturnsState : Prop :=
  (∀ s : State, exec .rdstate s = .next
    { s with
      cmdPort := s.cmdPort.drop 1, cidx := s.cidx + 1, respPort := s.respPort ++ [⟨s.S, s.stat, []⟩] }) ∧
  FieldFault 0x16 1 ∧
  WordsRun [0x1600000000000000] .rdstate

/-- R138: WRSTATE loads its operand word into S; an illegal WRSTATE consumes the operand word and leaves S. -/
def Obligations.WrstateLoadsState : Prop :=
  (∀ (s : State) (opw : Word), exec (.wrstate opw) s = .next
    { s with
      S := opw, cmdPort := s.cmdPort.drop 2, cidx := s.cidx + 1
      respPort := s.respPort ++ [⟨0, s.stat, []⟩] }) ∧
  FieldFault 0x17 2 ∧
  ∀ opw : Word, WordsRun [0x1700000000000000, opw] (.wrstate opw)

/-- R138: `WRSTATE s; UPDATE D; RDSTATE` returns DISPATCH(s, D), which is REFUPD(s, D), for any s, from any idle
reachable state. -/
def Obligations.SessionRestoreAndUpdate : Prop :=
  ∀ (st : State) (s : Word) (D : List Byte), Reachable st → st.Idle → D.length < 2 ^ 48 →
    ∃ (t : State) (r : Response), core.run 3 (st.send [Frame.of (.wrstate s), Frame.update D, Frame.of .rdstate]) = .next t ∧
      t.lastResponse = some r ∧ r.val = refUpd tabValue s D ∧ t.Idle

/-- R139: for every partition of a byte sequence into chunks, and whatever SETCAP frames stand between them, `RESET;
UPDATE D1; ...; UPDATE Dn; SUM` returns the number that CHECKSUM of the whole returns, in DOUT its big-endian bytes,
and that number is `not REFUPD(INIT, D)`. -/
def Obligations.StreamingEquivalence : Prop :=
  ∀ (st : State) (cs : List Chunk), st.Inv → st.Idle → (∀ c ∈ cs, c.bytes.length < 2 ^ 48) →
    ∃ (t : State) (r : Response), core.run (streamFrames cs).length (st.send (streamFrames cs)) = .next t ∧
      t.lastResponse = some r ∧
      r.val = ~~~(refUpd tabValue 0xFFFFFFFFFFFFFFFF (cs.flatMap Chunk.bytes)) ∧
      r.dout = (List.range 8).map (fun i => r.val.extractLsb' (56 - 8 * i) 8) ∧
      ((cs.flatMap Chunk.bytes).length < 2 ^ 48 →
        ∃ (t' : State) (r' : Response), core.run 1 (st.send [Frame.checksum (cs.flatMap Chunk.bytes)]) = .next t' ∧
          t'.lastResponse = some r' ∧ r'.val = r.val ∧ t'.S = st.S)

/-- R140: SUM, SIZE, BLKSIZE, RDSTATE, NOP, PROBE and CHECKSUM do not affect S, and two SUM frames in a row return
the same value and bytes. -/
def Obligations.SumIsIdempotent : Prop :=
  (∀ (i : Instr) (s t : State),
    (i = .sum ∨ i = .size ∨ i = .blksize ∨ i = .rdstate ∨ i = .nop ∨ i = .probe ∨ ∃ len, i = .checksum len) →
    exec i s = .next t → t.S = s.S) ∧
  (∀ st : State, st.Idle → ∃ (t : State) (r : Response), core.run 2 (st.send [Frame.of .sum, Frame.of .sum]) = .next t ∧
    t.respPort = st.respPort ++ [r, r])

/-- R141: `UPDATE a; RESET; UPDATE b; SUM` returns what `RESET; UPDATE b; SUM` returns. -/
def Obligations.ResetForgetsTheStream : Prop :=
  ∀ (st : State) (a b : List Byte), Reachable st → st.Idle → a.length < 2 ^ 48 → b.length < 2 ^ 48 →
    ∃ (t t' : State) (r r' : Response),
      core.run 4 (st.send [Frame.update a, Frame.of .reset, Frame.update b, Frame.of .sum]) = .next t ∧
      core.run 3 (st.send [Frame.of .reset, Frame.update b, Frame.of .sum]) = .next t' ∧
      t.lastResponse = some r ∧ t'.lastResponse = some r' ∧ r = r' ∧ t.S = t'.S

/-- Every command of a ready engine keeps everything but what its rule names: only RESET, UPDATE and WRSTATE write
S; only TGEN writes T and TV; only PROBE and SETCAP write CAP, only PROBE CAPV; only UPDATE and CHECKSUM write ACC;
only SETCAP writes ILL and CAUSE; no command writes TESTEN, READY or a pin; and every entry of the table RAM reads
as before except under TGEN. -/
def Obligations.CommandFrames : Prop :=
  ∀ (i : Instr) (s t : State), exec i s = .next t →
    (i ≠ .reset → (∀ len, i ≠ .update len) → (∀ w, i ≠ .wrstate w) → t.S = s.S) ∧
    (i ≠ .tgen → t.T = s.T ∧ t.TV = s.TV ∧ ∀ a, t.T.read a = s.T.read a) ∧
    (i ≠ .probe → (∀ v, i ≠ .setcap v) → t.CAP = s.CAP) ∧ (i ≠ .probe → t.CAPV = s.CAPV) ∧
    ((∀ len, i ≠ .update len) → (∀ len, i ≠ .checksum len) → t.ACC = s.ACC ∧ t.dataPort = s.dataPort) ∧
    ((∀ v, i ≠ .setcap v) → t.ILL = s.ILL ∧ t.CAUSE = s.CAUSE) ∧
    t.TESTEN = s.TESTEN ∧ t.READY = s.READY ∧ t.rst = s.rst ∧ t.capIn = s.capIn ∧ t.testen = s.testen

/-! ## The whole machine -/

/-- The invariant holds after reset. -/
def Obligations.ResetMeetsInvariant : Prop := State.reset.Inv

/-- Every step keeps the invariant, from every state that meets it: the table RAM stays canonical and, once valid,
the generated one; READY implies TV and CAPV; CAUSE is 0 exactly while ILL is 0; there are NLANES accumulators. -/
def Obligations.StepKeepsInvariant : Prop :=
  ∀ s t : State, s.Inv → step s = .next t → t.Inv

/-- R32: the five invariants of every state reachable from hardware reset. -/
def Obligations.ReachableStatesMeetR32 : Prop :=
  (∀ s : State, Reachable s → (s.READY = true → s.TV = true ∧ s.CAPV = true) ∧
    (s.TV = true → ∀ (k : Nat) (i : Byte), k < tableCount Config.slice8 →
      s.T.read (k * 256 + i.toNat) = sliceTab k i) ∧
    (s.ILL = false → s.CAUSE = 0)) ∧
  (∀ (sampled : Bool) (s : State), SinceProbe sampled s → s.TESTEN = false → s.CAP = sampled) ∧
  (∀ (strap : Bool) (s : State), SinceReset strap s → s.TESTEN = strap)

/-- R28, R31: no result depends on what the accumulators hold at the start of a step: two states that differ only in
ACC step to states that differ at most in ACC. -/
def Obligations.AccumulatorsAreScratch : Prop :=
  ∀ (s t : State) (acc : List Lane), step s = .next t →
    ∃ t', step { s with ACC := acc } = .next t' ∧ { t' with ACC := t.ACC } = t

/-- R159: a host move touches ports and pins only, never a register. For the move that drives `rst` this is the
model's reading that the reset is the next step under the level, not the move itself (DESIGN CHOICE: log entry
12). -/
def Obligations.HostMovesTouchNoRegister : Prop :=
  ∀ (m : HostMove) (s : State),
    { m.apply s with
      rst := s.rst, capIn := s.capIn, testen := s.testen
      cmdPort := s.cmdPort, dataPort := s.dataPort, respPort := s.respPort } = s

/-- R68, R69: lines of assembler text and the frames they stand for. -/
def Obligations.AssemblerLines : Prop :=
  assemble "UPDATE \"123456789\"" =
    some [⟨[0x1100000000000009], [0x31, 0x32, 0x33, 0x34, 0x35, 0x36, 0x37, 0x38, 0x39]⟩] ∧
  assemble "WRSTATE 0x0123456789ABCDEF ; restore" = some [⟨[0x1700000000000000, 0x0123456789ABCDEF], []⟩] ∧
  assemble "HASH x\"EF 01\"" =
    some [⟨[0x1000000000000000], []⟩, ⟨[0x1100000000000002], [0xEF, 0x01]⟩, ⟨[0x1200000000000000], []⟩] ∧
  assemble "FORCEFOLD" = some [⟨[0x0301000000000000], []⟩] ∧
  assemble ".word 0xFF00000000000005" = some [⟨[0xFF00000000000005], []⟩]
end

