-- ==== Sys2Proof/Laws/Asm.lean ====
section
/-! SUPPORT. What the assembler can do (spec/30_encoding.md R68, R69). -/

namespace Sys2Proof.Machine

@[simp] theorem PayloadText.length_bytes (p : PayloadText) : p.bytes.length = p.length := by
  cases p <;> simp [PayloadText.bytes, PayloadText.length]

/-- Everything `assemble` can answer: the frames of a line whose payload LEN can hold. -/
theorem assemble_cases {text : String} {fs : List Frame} (h : assemble text = some fs) :
    ∃ line, parseLine text.toList = some line ∧ line.encodable = true ∧ line.frames = fs := by
  unfold assemble at h
  cases hp : parseLine text.toList with
  | none => simp [hp] at h
  | some line => exact ⟨line, rfl, by simpa [hp] using h⟩

/-- No frame an encodable line stands for has a payload that LEN cannot hold (R63). -/
theorem AsmLine.payload_lt {line : AsmLine} (h : line.encodable = true) :
    ∀ f ∈ line.frames, f.payload.length < 2 ^ 48 := by
  cases line <;> simp_all [AsmLine.frames, AsmLine.encodable, Frame.of, Frame.update, Frame.checksum]

/-- No frame the assembler emits has a payload that LEN cannot hold (R63). -/
theorem assemble_payload_lt {text : String} {fs : List Frame} (h : assemble text = some fs) :
    ∀ f ∈ fs, f.payload.length < 2 ^ 48 := by
  obtain ⟨line, -, hl, rfl⟩ := assemble_cases h
  exact line.payload_lt hl

end Sys2Proof.Machine
end

