-- ==== Sys2Proof/Laws/Memory.lean ====
section
/-! SUPPORT. The laws of the table RAM: its canonical form is kept by every operation, a read after a write,
and two table RAMs in canonical form that read alike are equal. -/

namespace Sys2Proof.Machine

/-- Every listed index is above `a`. -/
def Memory.above (a : Nat) (m : Memory) : Prop := ∀ c ∈ m, a < c.1

theorem Memory.wf_cons (a : Nat) (v : Word) (m : Memory) :
    Memory.wf ((a, v) :: m) = true ↔ v ≠ Memory.unlisted ∧ Memory.above a m ∧ Memory.wf m = true := by
  induction m generalizing a v with
  | nil => simp [Memory.wf, Memory.above]
  | cons c m ih =>
    obtain ⟨b, w⟩ := c
    have h := ih b w
    simp only [Memory.wf, Bool.and_eq_true, bne_iff_ne, decide_eq_true_eq]
    constructor
    · rintro ⟨⟨hv, hab⟩, hm⟩
      refine ⟨hv, ?_, hm⟩
      rintro c (- | ⟨-, hc⟩)
      · exact hab
      · exact hab.trans ((h.1 hm).2.1 c hc)
    · rintro ⟨hv, hab, hm⟩
      exact ⟨⟨hv, hab (b, w) (by simp)⟩, hm⟩

theorem Memory.read_of_above {a : Nat} {m : Memory} (h : Memory.above a m) {b : Nat} (hb : b ≤ a) :
    Memory.read m b = Memory.unlisted := by
  induction m with
  | nil => rfl
  | cons c m ih =>
    obtain ⟨k, w⟩ := c
    have hk : a < k := h (k, w) (by simp)
    have hne : b ≠ k := by omega
    simpa [Memory.read, hne] using ih fun c hc => h c (by simp [hc])

theorem Memory.wf_put {a : Nat} {m : Memory} (v : Word) (h : Memory.above a m) (hm : m.wf = true) :
    (Memory.put a v m).wf = true := by
  unfold Memory.put
  split
  · exact hm
  · exact (Memory.wf_cons a v m).2 ⟨‹_›, h, hm⟩

theorem Memory.read_put {a : Nat} {m : Memory} (v : Word) (h : Memory.above a m) (b : Nat) :
    Memory.read (Memory.put a v m) b = if b = a then v else Memory.read m b := by
  unfold Memory.put
  split
  · split
    · rename_i hv hb
      rw [hv, Memory.read_of_above h hb.le]
    · rfl
  · rfl

theorem Memory.above_put {a k : Nat} {m : Memory} (v : Word) (hk : k < a) (h : Memory.above k m) :
    Memory.above k (Memory.put a v m) := by
  unfold Memory.put
  split
  · exact h
  · rintro c (- | ⟨-, hc⟩)
    · exact hk
    · exact h c hc

theorem Memory.above_write {a k : Nat} {m : Memory} (v : Word) (hk : k < a) (h : Memory.above k m) :
    Memory.above k (Memory.write m a v) := by
  induction m with
  | nil => exact Memory.above_put v hk h
  | cons c m ih =>
    obtain ⟨b, w⟩ := c
    have hm : Memory.above k m := fun c hc => h c (by simp [hc])
    unfold Memory.write
    split
    · exact Memory.above_put v hk h
    · split
      · exact Memory.above_put v hk hm
      · rintro c (- | ⟨-, hc⟩)
        · exact h (b, w) (by simp)
        · exact ih hm c hc

/-- A write keeps the canonical form. -/
theorem Memory.wf_write {m : Memory} (a : Nat) (v : Word) (hm : m.wf = true) : (Memory.write m a v).wf = true := by
  induction m with
  | nil => exact Memory.wf_put v (by simp [Memory.above]) hm
  | cons c m ih =>
    obtain ⟨b, w⟩ := c
    obtain ⟨hw, hab, hwf⟩ := (Memory.wf_cons b w m).1 hm
    unfold Memory.write
    split
    · refine Memory.wf_put v ?_ hm
      rintro c (- | ⟨-, hc⟩)
      · assumption
      · exact lt_trans ‹a < b› (hab c hc)
    · split
      · rename_i h; subst h; exact Memory.wf_put v hab hwf
      · exact (Memory.wf_cons _ _ _).2 ⟨hw, Memory.above_write v (by omega) hab, ih hwf⟩

/-- A read after a write: the written index reads the value, every other index as before. -/
theorem Memory.read_write {m : Memory} (a : Nat) (v : Word) (hm : m.wf = true) (b : Nat) :
    Memory.read (Memory.write m a v) b = if b = a then v else Memory.read m b := by
  induction m with
  | nil => exact Memory.read_put v (by simp [Memory.above]) b
  | cons c m ih =>
    obtain ⟨k, w⟩ := c
    obtain ⟨hw, hab, hwf⟩ := (Memory.wf_cons k w m).1 hm
    unfold Memory.write
    split
    · refine Memory.read_put v ?_ b
      rintro c (- | ⟨-, hc⟩)
      · assumption
      · exact lt_trans ‹a < k› (hab c hc)
    · split
      · rename_i h; subst h
        rw [Memory.read_put v hab b]
        by_cases hb : b = a <;> simp [Memory.read, hb]
      · by_cases hb : b = k
        · subst hb
          have : b ≠ a := fun h => ‹¬a = b› h.symm
          simp [Memory.read, this]
        · simpa [Memory.read, hb] using ih hwf

/-- The canonical form after a table was written. -/
theorem Memory.wf_writeAll {m : Memory} (n : Nat) (f : Nat → Word) (hm : m.wf = true) :
    (m.writeAll n f).wf = true := by
  unfold Memory.writeAll
  induction List.range n with
  | nil => exact hm
  | cons a l ih => exact Memory.wf_write _ _ ih

/-- Every entry after a table was written. -/
theorem Memory.read_writeAll {m : Memory} (n : Nat) (f : Nat → Word) (hm : m.wf = true) (b : Nat) :
    Memory.read (m.writeAll n f) b = if b < n then f b else Memory.read m b := by
  have key : ∀ l : List Nat,
      Memory.wf (l.foldr (fun a t => Memory.write t a (f a)) m) = true ∧
      Memory.read (l.foldr (fun a t => Memory.write t a (f a)) m) b =
        if b ∈ l then f b else Memory.read m b := by
    intro l
    induction l with
    | nil => simp [hm]
    | cons a l ih =>
      refine ⟨Memory.wf_write _ _ ih.1, ?_⟩
      rw [List.foldr_cons, Memory.read_write _ _ ih.1, ih.2]
      by_cases hb : b = a <;> simp [hb]
  simpa [Memory.writeAll] using (key (List.range n)).2

/-- Table RAMs in canonical form that read alike are the same data. -/
theorem Memory.eq_of_read {m m' : Memory} (hm : m.wf = true) (hm' : m'.wf = true)
    (h : ∀ a, m.read a = m'.read a) : m = m' := by
  induction m generalizing m' with
  | nil =>
    cases m' with
    | nil => rfl
    | cons c m' =>
      obtain ⟨b, w⟩ := c
      have := h b
      exact absurd (by simpa [Memory.read] using this.symm) ((Memory.wf_cons b w m').1 hm').1
  | cons c m ih =>
    obtain ⟨a, v⟩ := c
    obtain ⟨hv, ha, hwf⟩ := (Memory.wf_cons a v m).1 hm
    cases m' with
    | nil => exact absurd (by simpa [Memory.read] using h a) hv
    | cons c' m' =>
      obtain ⟨b, w⟩ := c'
      obtain ⟨hw, hb, hwf'⟩ := (Memory.wf_cons b w m').1 hm'
      have hab : a = b := by
        rcases lt_trichotomy a b with hlt | heq | hgt
        · have := h a
          rw [Memory.read, if_pos rfl, Memory.read, if_neg hlt.ne, Memory.read_of_above hb hlt.le] at this
          exact absurd this hv
        · exact heq
        · have := h b
          rw [Memory.read, if_neg hgt.ne, Memory.read_of_above ha hgt.le, Memory.read, if_pos rfl] at this
          exact absurd this.symm hw
      subst hab
      have hvw : v = w := by simpa [Memory.read] using h a
      subst hvw
      rw [ih hwf hwf' fun k => ?_]
      by_cases hk : k = a
      · subst hk
        rw [Memory.read_of_above ha le_rfl, Memory.read_of_above hb le_rfl]
      · simpa [Memory.read, hk] using h k

/-- What TGEN leaves in the table RAM: every entry of the KT tables, and nothing else changed. -/
theorem generate_read {m : Memory} (slice8 : Bool) (hm : m.wf = true) (a : Nat) :
    (generate slice8 m).read a = if a < tableCount slice8 * 256 then tabValue a else m.read a :=
  Memory.read_writeAll _ _ hm a

theorem generate_wf {m : Memory} (slice8 : Bool) (hm : m.wf = true) : (generate slice8 m).wf = true :=
  Memory.wf_writeAll _ _ hm

/-- The entry of table `k` at index `i`. -/
theorem tabValue_entry (k : Nat) (i : Byte) : tabValue (k * 256 + i.toNat) = sliceTab k i := by
  have hi : i.toNat < 256 := i.isLt
  unfold tabValue
  congr 1
  · omega
  · apply BitVec.eq_of_toNat_eq
    simpa [Nat.add_mod] using hi

end Sys2Proof.Machine
end

