-- ==== Sys2Proof/Laws/Poly.lean ====
section
/-! SUPPORT. The polynomial reading of words, lanes and bytes (spec/00_scope.md section 4): coefficients,
degrees, injectivity, xor as addition, and remainders modulo P as equalities in the quotient ring, where
proofs about REF and FOLD compute. -/

namespace Sys2Proof.Machine

open Polynomial

/-! ## Coefficients -/

/-- A bit as a coefficient. -/
def bit2 (b : Bool) : ZMod 2 := if b then 1 else 0

theorem bit2_xor (a b : Bool) : bit2 (a ^^ b) = bit2 a + bit2 b := by
  cases a <;> cases b <;> decide

theorem bit2_injective {a b : Bool} (h : bit2 a = bit2 b) : a = b := by
  cases a <;> cases b <;> first | rfl | exact absurd h (by decide)

/-- A sum of `m` bits with the first at the highest degree, coefficient by coefficient. -/
theorem coeff_reflected (m : Nat) (f : Nat → Bool) (n : Nat) :
    (∑ i ∈ Finset.range m, if f i then (X : (ZMod 2)[X]) ^ (m - 1 - i) else 0).coeff n =
      if n < m then bit2 (f (m - 1 - n)) else 0 := by
  rw [finsetSum_coeff]
  split
  · rename_i hn
    rw [Finset.sum_eq_single (m - 1 - n)]
    · cases f (m - 1 - n) <;> simp [bit2, coeff_X_pow, show m - 1 - (m - 1 - n) = n by omega]
    · intro i hi hne
      have := Finset.mem_range.mp hi
      split
      · rw [coeff_X_pow, if_neg (by omega)]
      · simp
    · intro h
      exact absurd (Finset.mem_range.mpr (by omega)) h
  · rename_i hn
    refine Finset.sum_eq_zero fun i hi => ?_
    split
    · rw [coeff_X_pow, if_neg (by have := Finset.mem_range.mp hi; omega)]
    · simp

theorem coeff_phi (w : Word) (n : Nat) :
    (phi w).coeff n = if n < 64 then bit2 (w.getLsbD (63 - n)) else 0 :=
  coeff_reflected 64 (fun i => w.getLsbD i) n

theorem coeff_lanePhi (A : Lane) (n : Nat) :
    (lanePhi A).coeff n = if n < 128 then bit2 (A.getLsbD (127 - n)) else 0 :=
  coeff_reflected 128 (fun i => A.getLsbD i) n

theorem coeff_beta (b : Byte) (n : Nat) :
    (beta b).coeff n = if n < 8 then bit2 (b.getLsbD (7 - n)) else 0 :=
  coeff_reflected 8 (fun i => b.getLsbD i) n

/-! ## Injectivity, addition, degree -/

theorem phi_injective {v w : Word} (h : phi v = phi w) : v = w := by
  apply BitVec.eq_of_getLsbD_eq
  intro i hi
  have := congrArg (fun p => p.coeff (63 - i)) h
  simp only [coeff_phi, show 63 - i < 64 by omega, if_true, show 63 - (63 - i) = i by omega] at this
  exact bit2_injective this

theorem lanePhi_injective {A B : Lane} (h : lanePhi A = lanePhi B) : A = B := by
  apply BitVec.eq_of_getLsbD_eq
  intro i hi
  have := congrArg (fun p => p.coeff (127 - i)) h
  simp only [coeff_lanePhi, show 127 - i < 128 by omega, if_true, show 127 - (127 - i) = i by omega] at this
  exact bit2_injective this

theorem phi_xor (v w : Word) : phi (v ^^^ w) = phi v + phi w := by
  ext n
  rw [coeff_add, coeff_phi, coeff_phi, coeff_phi]
  split
  · rw [BitVec.getLsbD_xor, bit2_xor]
  · simp

theorem lanePhi_xor (A B : Lane) : lanePhi (A ^^^ B) = lanePhi A + lanePhi B := by
  ext n
  rw [coeff_add, coeff_lanePhi, coeff_lanePhi, coeff_lanePhi]
  split
  · rw [BitVec.getLsbD_xor, bit2_xor]
  · simp

theorem beta_xor (a b : Byte) : beta (a ^^^ b) = beta a + beta b := by
  ext n
  rw [coeff_add, coeff_beta, coeff_beta, coeff_beta]
  split
  · rw [BitVec.getLsbD_xor, bit2_xor]
  · simp

theorem phi_zero : phi 0 = 0 := by
  ext n
  simp [coeff_phi, bit2]

theorem lanePhi_zero : lanePhi 0 = 0 := by
  ext n
  simp [coeff_lanePhi, bit2]

theorem beta_zero : beta 0 = 0 := by
  ext n
  simp [coeff_beta, bit2]

theorem degree_phi (w : Word) : (phi w).degree < ((64 : ℕ) : WithBot ℕ) := by
  rw [degree_lt_iff_coeff_zero]
  intro n hn
  rw [coeff_phi, if_neg (Nat.not_lt.mpr hn)]

theorem natDegree_phi (w : Word) : (phi w).natDegree < 64 := by
  rcases eq_or_ne (phi w) 0 with h | h
  · simp [h]
  · exact (natDegree_lt_iff_degree_lt h).mpr (degree_phi w)

theorem degree_lanePhi (A : Lane) : (lanePhi A).degree < ((128 : ℕ) : WithBot ℕ) := by
  rw [degree_lt_iff_coeff_zero]
  intro n hn
  rw [coeff_lanePhi, if_neg (Nat.not_lt.mpr hn)]

/-- In characteristic 2 a polynomial is its own negative. -/
theorem add_self_two (p : (ZMod 2)[X]) : p + p = 0 := CharTwo.add_self_eq_zero p

theorem sub_eq_add_two (p q : (ZMod 2)[X]) : p - q = p + q := CharTwo.sub_eq_add p q

/-! ## Shifts and halves -/

/-- A shift right by one, with the bit that leaves as the coefficient of x^64. -/
theorem phi_mul_X (w : Word) : phi w * X = phi (w >>> 1) + if w.getLsbD 0 then X ^ 64 else 0 := by
  ext n
  rw [coeff_add, coeff_phi]
  cases n with
  | zero => cases h : w.getLsbD 0 <;> simp [bit2, coeff_X_pow]
  | succ n =>
    rw [coeff_mul_X, coeff_phi]
    by_cases h1 : n + 1 < 64
    · rw [if_pos (by omega), if_pos h1, BitVec.getLsbD_ushiftRight, show 1 + (63 - (n + 1)) = 63 - n by omega]
      cases w.getLsbD 0 <;> simp [coeff_X_pow, show ¬ n + 1 = 64 by omega]
    · by_cases h2 : n = 63
      · subst h2
        cases w.getLsbD 0 <;> simp [bit2]
      · rw [if_neg (by omega), if_neg h1]
        cases w.getLsbD 0 <;> simp [coeff_X_pow, show ¬ n + 1 = 64 by omega]

/-- A word whose bit 0 is clear loses nothing when it is shifted right. -/
theorem phi_mul_X_of_even {w : Word} (h : w.getLsbD 0 = false) : phi w * X = phi (w >>> 1) := by
  rw [phi_mul_X, h]
  simp

/-- A shift right by eight, with the byte that leaves above x^64. -/
theorem phi_mul_X_pow_eight (w : Word) : phi w * X ^ 8 = phi (w >>> 8) + beta (byteOf w 0) * X ^ 64 := by
  ext n
  rw [coeff_add, coeff_mul_X_pow', coeff_mul_X_pow', coeff_phi, coeff_phi, coeff_beta]
  by_cases h1 : 8 ≤ n
  · by_cases h2 : n < 64
    · simp [h1, h2, show n - 8 < 64 by omega, show ¬ 64 ≤ n by omega, show 8 + (63 - n) = 63 - (n - 8) by omega]
    · by_cases h3 : n < 72
      · simp [h1, h2, show n - 8 < 64 by omega, show 64 ≤ n by omega, show n - 64 < 8 by omega, byteOf,
          show 7 - (n - 64) = 63 - (n - 8) by omega, show 63 - (n - 8) < 8 by omega]
      · simp [h1, h2, show ¬ n - 8 < 64 by omega, show ¬ n - 64 < 8 by omega]
  · simp [h1, show n < 64 by omega, show ¬ 64 ≤ n by omega, bit2, show 64 ≤ 8 + (63 - n) by omega]

theorem phi_setWidth_byte (b : Byte) : phi (b.setWidth 64) = beta b * X ^ 56 := by
  ext n
  rw [coeff_mul_X_pow', coeff_phi, coeff_beta]
  by_cases h1 : n < 64
  · by_cases h2 : 56 ≤ n
    · simp [h1, h2, show n - 56 < 8 by omega, show 7 - (n - 56) = 63 - n by omega, show 63 - n < 64 by omega]
    · simp [h1, h2, bit2, show 8 ≤ 63 - n by omega]
  · by_cases h2 : 56 ≤ n
    · simp [h1, h2, show ¬ n - 56 < 8 by omega]
    · omega

/-- A lane is its low half above its high half (spec/42_clmul_folder.md R101). -/
theorem lanePhi_halves (A : Lane) : lanePhi A = phi (laneLow A) * X ^ 64 + phi (laneHigh A) := by
  ext n
  rw [coeff_add, coeff_mul_X_pow', coeff_lanePhi, coeff_phi, coeff_phi]
  by_cases h1 : n < 64
  · simp [h1, show n < 128 by omega, show ¬ 64 ≤ n by omega, laneHigh, show 64 + (63 - n) = 127 - n by omega, show 63 - n < 64 by omega]
  · by_cases h2 : n < 128
    · simp [h1, h2, show 64 ≤ n by omega, show n - 64 < 64 by omega, laneLow,
        show 63 - (n - 64) = 127 - n by omega, show 127 - n < 64 by omega]
    · simp [h1, h2, show ¬ n - 64 < 64 by omega]

theorem lanePhi_setWidth_word (w : Word) : lanePhi (w.setWidth 128) = phi w * X ^ 64 := by
  have hl : laneLow (w.setWidth 128) = w := by
    apply BitVec.eq_of_getLsbD_eq
    intro i hi
    simp [laneLow, hi, show i < 128 by omega]
  have hh : laneHigh (w.setWidth 128) = 0 := by
    apply BitVec.eq_of_getLsbD_eq
    intro i hi
    simp [laneHigh]
  rw [lanePhi_halves, hl, hh, phi_zero, add_zero]

/-! ## The modulus -/

/-- POLY_R and POLY_N are bit reversals of each other (spec/00_scope.md R4). -/
theorem poly_reversed : ∀ i < 64, POLY_N.getLsbD i = POLY_R.getLsbD (63 - i) := by decide +kernel

theorem polyP_eq : polyP = X ^ 64 + phi POLY_R := by
  unfold polyP
  rw [add_right_inj]
  ext n
  rw [coeff_phi, finsetSum_coeff]
  split
  · rename_i hn
    rw [Finset.sum_eq_single n]
    · rw [poly_reversed n hn]
      cases POLY_R.getLsbD (63 - n) <;> simp [bit2]
    · intro i _ hne
      split
      · rw [coeff_X_pow, if_neg (Ne.symm hne)]
      · simp
    · intro h
      exact absurd (Finset.mem_range.mpr hn) h
  · refine Finset.sum_eq_zero fun i hi => ?_
    split
    · rw [coeff_X_pow, if_neg (by have := Finset.mem_range.mp hi; omega)]
    · simp

theorem polyP_monic : polyP.Monic := by
  rw [polyP_eq]
  exact monic_X_pow_add (by exact_mod_cast degree_phi POLY_R)

theorem degree_polyP : polyP.degree = ((64 : ℕ) : WithBot ℕ) := by
  rw [polyP_eq, degree_add_eq_left_of_degree_lt, degree_X_pow]
  · rw [degree_X_pow]
    exact degree_phi POLY_R

/-- The remainder class modulo P. -/
noncomputable abbrev red : (ZMod 2)[X] →+* AdjoinRoot polyP := AdjoinRoot.mk polyP

/-- A word is a remainder exactly when it is congruent: words have degree below 64. -/
theorem phi_eq_mod_iff (w : Word) (p : (ZMod 2)[X]) : phi w = p %ₘ polyP ↔ red (phi w) = red p := by
  rw [AdjoinRoot.mk_eq_mk]
  constructor
  · intro h
    rw [h, dvd_sub_comm]
    exact ⟨p /ₘ polyP, by rw [sub_eq_iff_eq_add, add_comm]; exact (modByMonic_add_div p polyP).symm⟩
  · intro h
    rw [← modByMonic_eq_of_dvd_sub polyP_monic h, eq_comm, modByMonic_eq_self_iff polyP_monic, degree_polyP]
    exact degree_phi w

theorem mod_eq_mod_iff (p q : (ZMod 2)[X]) : p %ₘ polyP = q %ₘ polyP ↔ red p = red q := by
  rw [AdjoinRoot.mk_eq_mk]
  constructor
  · intro h
    have hp := modByMonic_add_div p polyP
    have hq := modByMonic_add_div q polyP
    exact ⟨p /ₘ polyP - q /ₘ polyP, by rw [mul_sub, ← sub_eq_zero]; linear_combination hq - hp + h⟩
  · exact modByMonic_eq_of_dvd_sub polyP_monic

/-- Two words in the same remainder class are equal. -/
theorem eq_of_red {v w : Word} (h : red (phi v) = red (phi w)) : v = w := by
  apply phi_injective
  rw [(phi_eq_mod_iff v (phi w)).mpr h]
  exact ((phi_eq_mod_iff w (phi w)).mpr rfl).symm

theorem red_X_pow : red (X ^ 64) = red (phi POLY_R) := by
  rw [AdjoinRoot.mk_eq_mk, sub_eq_add_two, ← polyP_eq]

end Sys2Proof.Machine
end

