-- ==== Sys2Proof/Laws/Crc.lean ====
section
/-! SUPPORT. The steps of TGEN and REF modulo P, as equations in the quotient ring (`red`), the polynomial of a byte
sequence, and how the paths depend on the table they read. -/

namespace Sys2Proof.Machine

open Polynomial

/-! ## TGEN and REF modulo P -/

theorem red_bitStep (c : Word) : red (phi (bitStep c)) = red (phi c) * red X := by
  rw [← map_mul, phi_mul_X]
  unfold bitStep
  split
  · rw [phi_xor, map_add, map_add, red_X_pow]
  · simp

theorem red_bitSteps (n : Nat) (c : Word) : red (phi (bitSteps n c)) = red (phi c) * red X ^ n := by
  induction n generalizing c with
  | zero => simp [bitSteps]
  | succ n ih =>
    rw [bitSteps, ih, red_bitStep]
    ring

theorem bitSteps_add (m n : Nat) (c : Word) : bitSteps (m + n) c = bitSteps n (bitSteps m c) := by
  induction m generalizing c with
  | zero => simp [bitSteps]
  | succ m ih =>
    rw [Nat.succ_add, bitSteps, ih]
    rfl

theorem red_tabEntry (i : Byte) : red (phi (tabEntry i)) = red (beta i) * red X ^ 64 := by
  rw [tabEntry, red_bitSteps, phi_setWidth_byte, map_mul, map_pow, mul_assoc, ← pow_add]

theorem red_shift_byte (c : Word) :
    red (phi c) * red X ^ 8 = red (phi (c >>> 8)) + red (beta (byteOf c 0)) * red X ^ 64 := by
  have h := congrArg red (phi_mul_X_pow_eight c)
  rwa [map_mul, map_add, map_mul, map_pow, map_pow] at h

theorem red_zeroByteStep (c : Word) : red (phi (zeroByteStep c)) = red (phi c) * red X ^ 8 := by
  rw [red_shift_byte, zeroByteStep, phi_xor, map_add, red_tabEntry, add_comm]

theorem red_sliceTab (k : Nat) (i : Byte) :
    red (phi (sliceTab k i)) = red (beta i) * red X ^ (64 + 8 * k) := by
  induction k with
  | zero => exact red_tabEntry i
  | succ k ih =>
    rw [sliceTab, red_zeroByteStep, ih]
    ring

theorem entry_tabValue (k : Nat) (i : Byte) : Table.entry tabValue k i = sliceTab k i := tabValue_entry k i

theorem byteOf_xor_byte (s : Word) (b : Byte) : byteOf (s ^^^ b.setWidth 64) 0 = byteOf s 0 ^^^ b := by
  apply BitVec.eq_of_getLsbD_eq
  intro i hi
  simp [byteOf, hi, show i < 64 by omega]

theorem red_refStep (s : Word) (b : Byte) :
    red (phi (refStep tabValue s b)) = red (phi s) * red X ^ 8 + red (beta b) * red X ^ 64 := by
  rw [refStep, entry_tabValue, phi_xor, map_add, red_sliceTab, byteOf_xor_byte, beta_xor, map_add, red_shift_byte]
  ring

theorem refUpd_cons (T : Table) (s : Word) (b : Byte) (D : List Byte) :
    refUpd T s (b :: D) = refUpd T (refStep T s b) D := rfl

theorem red_refUpd (s : Word) (D : List Byte) :
    red (phi (refUpd tabValue s D)) =
      red (phi s) * red X ^ (8 * D.length) + red (delta D) * red X ^ 64 := by
  induction D generalizing s with
  | nil => simp [refUpd, delta]
  | cons b D ih =>
    rw [refUpd_cons, ih, red_refStep, delta, map_add, map_mul, map_pow, List.length_cons]
    ring

/-! ## Byte sequences -/

theorem delta_append (D E : List Byte) : delta (D ++ E) = delta D * X ^ (8 * E.length) + delta E := by
  induction D with
  | nil => simp [delta]
  | cons b D ih =>
    simp only [List.cons_append, delta, ih, List.length_append]
    ring

theorem delta_xor {D D' : List Byte} (h : D.length = D'.length) :
    delta (List.zipWith (· ^^^ ·) D D') = delta D + delta D' := by
  induction D generalizing D' with
  | nil => cases D' <;> simp_all [delta]
  | cons b D ih =>
    cases D' with
    | nil => simp at h
    | cons b' D' =>
      simp only [List.length_cons, Nat.add_right_cancel_iff] at h
      simp only [List.zipWith_cons_cons, delta, ih h, beta_xor, List.length_zipWith, h, Nat.min_self]
      ring

theorem delta_zeros (n : Nat) : delta (List.replicate n 0) = 0 := by
  induction n with
  | zero => rfl
  | succ n ih =>
    rw [List.replicate_succ, delta, ih, beta_zero]
    simp

/-- The coefficients of a byte sequence: byte `length - 1 - n/8` holds the degrees around n. -/
theorem coeff_delta (D : List Byte) (n : Nat) : (delta D).coeff n =
    if n < 8 * D.length then bit2 ((D.getD (D.length - 1 - n / 8) 0).getLsbD (7 - n % 8)) else 0 := by
  induction D generalizing n with
  | nil => simp [delta]
  | cons b D ih =>
    rw [delta, coeff_add, coeff_mul_X_pow', coeff_beta, ih, List.length_cons]
    by_cases h1 : n < 8 * D.length
    · rw [if_neg (by omega), if_pos h1, if_pos (by omega), zero_add,
        show D.length + 1 - 1 - n / 8 = D.length - 1 - n / 8 + 1 by omega]
      rfl
    · rw [if_pos (by omega), if_neg h1, add_zero]
      by_cases h2 : n < 8 * (D.length + 1)
      · rw [if_pos (by omega), if_pos h2, show D.length + 1 - 1 - n / 8 = 0 by omega,
          show 7 - (n - 8 * D.length) = 7 - n % 8 by omega]
        rfl
      · rw [if_neg (by omega), if_neg h2]

/-- The bits of a little-endian value are the bits of its bytes (spec/20_memory.md R43). -/
theorem testBit_leValue (D : List Byte) (i : Nat) :
    (leValue D).testBit i = (D.getD (i / 8) 0).getLsbD (i % 8) := by
  induction D generalizing i with
  | nil => simp [leValue]
  | cons b D ih =>
    rw [leValue, show b.toNat + 256 * leValue D = 2 ^ 8 * leValue D + b.toNat by omega,
      Nat.testBit_two_pow_mul_add _ b.isLt]
    split
    · rename_i h
      rw [Nat.div_eq_of_lt h, Nat.mod_eq_of_lt h]
      rfl
    · rename_i h
      rw [ih, show i / 8 = (i - 8) / 8 + 1 by omega, show i % 8 = (i - 8) % 8 by omega]
      rfl

theorem getLsbD_le64 (D : List Byte) (off : Nat) {i : Nat} (h : i < 64) :
    (le64 D off).getLsbD i = (D.getD (off + i / 8) 0).getLsbD (i % 8) := by
  rw [le64, BitVec.getLsbD_ofNat, payBytes, testBit_leValue]
  simp [List.getD, h, show i / 8 < 8 by omega]

theorem getLsbD_le128 (D : List Byte) (off : Nat) {i : Nat} (h : i < 128) :
    (le128 D off).getLsbD i = (D.getD (off + i / 8) 0).getLsbD (i % 8) := by
  rw [le128, BitVec.getLsbD_ofNat, payBytes, testBit_leValue]
  simp [List.getD, h, show i / 8 < 16 by omega]

/-! ## Which entries a path reads -/

theorem refUpd_congr {T T' : Table} (h : ∀ i, T.entry 0 i = T'.entry 0 i) (s : Word) (D : List Byte) :
    refUpd T s D = refUpd T' s D := by
  induction D generalizing s with
  | nil => rfl
  | cons b D ih => rw [refUpd_cons, refUpd_cons, ih, refStep, refStep, h]

theorem sliceLoop_congr {T T' : Table} (h : ∀ k i, k < 8 → T.entry k i = T'.entry k i) (n : Nat) (s : Word)
    (D : List Byte) : sliceLoop T n s D = sliceLoop T' n s D := by
  induction n generalizing s D with
  | zero => exact refUpd_congr (fun i => h 0 i (by omega)) s D
  | succ n ih =>
    rw [sliceLoop, sliceLoop, ih]
    simp only [sliceLookups]
    rw [h 7 _ (by omega), h 6 _ (by omega), h 5 _ (by omega), h 4 _ (by omega), h 3 _ (by omega), h 2 _ (by omega),
      h 1 _ (by omega), h 0 _ (by omega)]

/-- REFPATH reads only the entries that TGEN generates. -/
theorem refPath_congr {slice8 : Bool} {T T' : Table}
    (h : ∀ k i, k < tableCount slice8 → T.entry k i = T'.entry k i) (s : Word) (D : List Byte) :
    refPath slice8 T s D = refPath slice8 T' s D := by
  cases slice8
  · exact refUpd_congr (fun i => h 0 i (by decide)) s D
  · exact sliceLoop_congr h _ s D

/-- So does FOLDUPD. -/
theorem foldUpd_congr {slice8 : Bool} {T T' : Table} (nl : NLanes)
    (h : ∀ k i, k < tableCount slice8 → T.entry k i = T'.entry k i) (s : Word) (D : List Byte) :
    foldUpd nl slice8 T s D = foldUpd nl slice8 T' s D := by
  simp only [foldUpd, refPath_congr h]

end Sys2Proof.Machine
end

