-- ==== Sys2Proof/Laws/Encoding.lean ====
section
/-! SUPPORT. The fields of a command word, and the command word from its fields (spec/30_encoding.md R61). -/

namespace Sys2Proof

theorem wellFormed_update (len : Nat) : (Instr.update len).wellFormed = true ↔ len < 2 ^ 48 :=
  decide_eq_true_iff

theorem wellFormed_checksum (len : Nat) : (Instr.checksum len).wellFormed = true ↔ len < 2 ^ 48 :=
  decide_eq_true_iff

theorem getLsbD_commandWord (o a : BitVec 8) (l i : Nat) : (commandWord o a l).getLsbD i =
    if i < 48 then (BitVec.ofNat 48 l).getLsbD i
    else if i < 56 then a.getLsbD (i - 48) else o.getLsbD (i - 56) := by
  have h : (commandWord o a l).getLsbD i = (o ++ (a ++ BitVec.ofNat 48 l)).getLsbD i := rfl
  rw [h, BitVec.getLsbD_append, BitVec.getLsbD_append]
  by_cases h1 : i < 48
  · simp [h1, show i < 56 by omega]
  · by_cases h2 : i < 56 <;> simp [h1, h2]

theorem opcField_commandWord (o a : BitVec 8) (l : Nat) : opcField (commandWord o a l) = o := by
  apply BitVec.eq_of_getLsbD_eq
  intro i hi
  simp [opcField, getLsbD_commandWord, hi, show ¬ 56 + i < 48 by omega]

theorem argField_commandWord (o a : BitVec 8) (l : Nat) : argField (commandWord o a l) = a := by
  apply BitVec.eq_of_getLsbD_eq
  intro i hi
  simp [argField, getLsbD_commandWord, hi, show ¬ 56 ≤ 48 + i by omega]

theorem lenField_commandWord (o a : BitVec 8) (l : Nat) :
    lenField (commandWord o a l) = BitVec.ofNat 48 l := by
  apply BitVec.eq_of_getLsbD_eq
  intro i hi
  simp [lenField, getLsbD_commandWord, hi]

theorem argHighField_commandWord (o a : BitVec 8) (l : Nat) :
    argHighField (commandWord o a l) = a.extractLsb' 1 7 := by
  apply BitVec.eq_of_getLsbD_eq
  intro i hi
  simp [argHighField, getLsbD_commandWord, hi, show ¬ 49 + i < 48 by omega, show 49 + i < 56 by omega,
    show 49 + i - 48 = 1 + i by omega]

theorem vField_commandWord (o a : BitVec 8) (l : Nat) : vField (commandWord o a l) = a.getLsbD 0 := by
  rw [vField, getLsbD_commandWord]
  simp

/-- A word is the command word of its own fields. -/
theorem commandWord_fields (cw : Word) :
    commandWord (opcField cw) (argField cw) (lenField cw).toNat = cw := by
  apply BitVec.eq_of_getLsbD_eq
  intro i hi
  rw [getLsbD_commandWord, BitVec.ofNat_toNat, BitVec.setWidth_eq]
  split
  · simp [lenField, *]
  · split
    · simp [argField, show i - 48 < 8 by omega, show 48 + (i - 48) = i by omega]
    · simp [opcField, show i - 56 < 8 by omega, show 56 + (i - 56) = i by omega]

/-- The three fields of a word determine it. -/
theorem eq_of_fields {cw cw' : Word} (ho : opcField cw = opcField cw') (ha : argField cw = argField cw')
    (hl : lenField cw = lenField cw') : cw = cw' := by
  rw [← commandWord_fields cw, ← commandWord_fields cw', ho, ha, hl]

/-- ARG is its high part and its bit 0, which is V. -/
theorem argField_eq (cw : Word) :
    argField cw = (argHighField cw).setWidth 8 <<< 1 ||| (BitVec.ofBool (vField cw)).setWidth 8 := by
  apply BitVec.eq_of_getLsbD_eq
  intro i hi
  rcases Nat.eq_zero_or_pos i with rfl | h
  · simp [argField, vField]
  · simp [argField, argHighField, hi, show i ≠ 0 by omega, show i - 1 < 7 by omega,
      show 49 + (i - 1) = 48 + i by omega]

/-- Decoding after the command word's OPC is known. -/
theorem decode_cons (cw : Word) (rest : List Word) : decode (cw :: rest) =
    match opcField cw with
    | 0x00#8 => decodeF0 cw .nop
    | 0x01#8 => decodeF0 cw .tgen
    | 0x02#8 => decodeF0 cw .probe
    | 0x03#8 => decodeFA cw
    | 0x10#8 => decodeF0 cw .reset
    | 0x11#8 => decodeFL cw .update
    | 0x12#8 => decodeF0 cw .sum
    | 0x13#8 => decodeFL cw .checksum
    | 0x14#8 => decodeF0 cw .size
    | 0x15#8 => decodeF0 cw .blksize
    | 0x16#8 => decodeF0 cw .rdstate
    | 0x17#8 => decodeFW cw rest
    | _ => .error .illOpc := rfl

end Sys2Proof
end

