-- ==== Sys2Proof/Laws/State.lean ====
section
/-! SUPPORT. What each field of the state is after each shared operation: one lemma per field per
operation, so that no proof unfolds a record update. -/

namespace Sys2Proof.Machine

/-! ### Fields after consuming a frame (`State.consume`) -/

section
variable (e : Extent) (s : State)

@[simp] theorem State.consume_S : (s.consume e).S = s.S := rfl
@[simp] theorem State.consume_T : (s.consume e).T = s.T := rfl
@[simp] theorem State.consume_TV : (s.consume e).TV = s.TV := rfl
@[simp] theorem State.consume_CAP : (s.consume e).CAP = s.CAP := rfl
@[simp] theorem State.consume_CAPV : (s.consume e).CAPV = s.CAPV := rfl
@[simp] theorem State.consume_TESTEN : (s.consume e).TESTEN = s.TESTEN := rfl
@[simp] theorem State.consume_ILL : (s.consume e).ILL = s.ILL := rfl
@[simp] theorem State.consume_CAUSE : (s.consume e).CAUSE = s.CAUSE := rfl
@[simp] theorem State.consume_READY : (s.consume e).READY = s.READY := rfl
@[simp] theorem State.consume_ACC : (s.consume e).ACC = s.ACC := rfl
@[simp] theorem State.consume_cidx : (s.consume e).cidx = s.cidx := rfl
@[simp] theorem State.consume_rst : (s.consume e).rst = s.rst := rfl
@[simp] theorem State.consume_capIn : (s.consume e).capIn = s.capIn := rfl
@[simp] theorem State.consume_testen : (s.consume e).testen = s.testen := rfl
@[simp] theorem State.consume_cmdPort : (s.consume e).cmdPort = s.cmdPort.drop e.words := rfl
@[simp] theorem State.consume_dataPort : (s.consume e).dataPort = s.dataPort.drop e.bytes := rfl
@[simp] theorem State.consume_respPort : (s.consume e).respPort = s.respPort := rfl
@[simp] theorem State.consume_draws : (s.consume e).draws = s.draws := rfl

end

/-! ### Fields after responding (`State.respond`) -/

section
variable (val : Word) (dout : List Byte) (s : State)

@[simp] theorem State.respond_S : (s.respond val dout).S = s.S := rfl
@[simp] theorem State.respond_T : (s.respond val dout).T = s.T := rfl
@[simp] theorem State.respond_TV : (s.respond val dout).TV = s.TV := rfl
@[simp] theorem State.respond_CAP : (s.respond val dout).CAP = s.CAP := rfl
@[simp] theorem State.respond_CAPV : (s.respond val dout).CAPV = s.CAPV := rfl
@[simp] theorem State.respond_TESTEN : (s.respond val dout).TESTEN = s.TESTEN := rfl
@[simp] theorem State.respond_ILL : (s.respond val dout).ILL = s.ILL := rfl
@[simp] theorem State.respond_CAUSE : (s.respond val dout).CAUSE = s.CAUSE := rfl
@[simp] theorem State.respond_READY : (s.respond val dout).READY = s.READY := rfl
@[simp] theorem State.respond_ACC : (s.respond val dout).ACC = s.ACC := rfl
@[simp] theorem State.respond_cidx : (s.respond val dout).cidx = s.cidx + 1 := rfl
@[simp] theorem State.respond_rst : (s.respond val dout).rst = s.rst := rfl
@[simp] theorem State.respond_capIn : (s.respond val dout).capIn = s.capIn := rfl
@[simp] theorem State.respond_testen : (s.respond val dout).testen = s.testen := rfl
@[simp] theorem State.respond_cmdPort : (s.respond val dout).cmdPort = s.cmdPort := rfl
@[simp] theorem State.respond_dataPort : (s.respond val dout).dataPort = s.dataPort := rfl
@[simp] theorem State.respond_respPort : (s.respond val dout).respPort = s.respPort ++ [⟨val, s.stat, dout⟩] := rfl
@[simp] theorem State.respond_draws : (s.respond val dout).draws = s.draws := rfl

end

/-! ### Fields after completing a frame (`State.complete`) -/

section
variable (e : Extent) (val : Word) (dout : List Byte) (s : State)

@[simp] theorem State.complete_S : (s.complete e val dout).S = s.S := rfl
@[simp] theorem State.complete_T : (s.complete e val dout).T = s.T := rfl
@[simp] theorem State.complete_TV : (s.complete e val dout).TV = s.TV := rfl
@[simp] theorem State.complete_CAP : (s.complete e val dout).CAP = s.CAP := rfl
@[simp] theorem State.complete_CAPV : (s.complete e val dout).CAPV = s.CAPV := rfl
@[simp] theorem State.complete_TESTEN : (s.complete e val dout).TESTEN = s.TESTEN := rfl
@[simp] theorem State.complete_ILL : (s.complete e val dout).ILL = s.ILL := rfl
@[simp] theorem State.complete_CAUSE : (s.complete e val dout).CAUSE = s.CAUSE := rfl
@[simp] theorem State.complete_READY : (s.complete e val dout).READY = s.READY := rfl
@[simp] theorem State.complete_ACC : (s.complete e val dout).ACC = s.ACC := rfl
@[simp] theorem State.complete_cidx : (s.complete e val dout).cidx = s.cidx + 1 := rfl
@[simp] theorem State.complete_rst : (s.complete e val dout).rst = s.rst := rfl
@[simp] theorem State.complete_capIn : (s.complete e val dout).capIn = s.capIn := rfl
@[simp] theorem State.complete_testen : (s.complete e val dout).testen = s.testen := rfl
@[simp] theorem State.complete_cmdPort : (s.complete e val dout).cmdPort = s.cmdPort.drop e.words := rfl
@[simp] theorem State.complete_dataPort : (s.complete e val dout).dataPort = s.dataPort.drop e.bytes := rfl
@[simp] theorem State.complete_respPort :
    (s.complete e val dout).respPort = s.respPort ++ [⟨val, s.stat, dout⟩] := rfl
@[simp] theorem State.complete_draws : (s.complete e val dout).draws = s.draws := rfl

end

/-! ### Fields after recording a fault (`State.recordIll`) -/

section
variable (c : IllCause) (s : State)

@[simp] theorem State.recordIll_S : (s.recordIll c).S = s.S := rfl
@[simp] theorem State.recordIll_T : (s.recordIll c).T = s.T := rfl
@[simp] theorem State.recordIll_TV : (s.recordIll c).TV = s.TV := rfl
@[simp] theorem State.recordIll_CAP : (s.recordIll c).CAP = s.CAP := rfl
@[simp] theorem State.recordIll_CAPV : (s.recordIll c).CAPV = s.CAPV := rfl
@[simp] theorem State.recordIll_TESTEN : (s.recordIll c).TESTEN = s.TESTEN := rfl
@[simp] theorem State.recordIll_ILL : (s.recordIll c).ILL = true := rfl
@[simp] theorem State.recordIll_CAUSE : (s.recordIll c).CAUSE = if s.ILL then s.CAUSE else illCode c := rfl
@[simp] theorem State.recordIll_READY : (s.recordIll c).READY = s.READY := rfl
@[simp] theorem State.recordIll_ACC : (s.recordIll c).ACC = s.ACC := rfl
@[simp] theorem State.recordIll_cidx : (s.recordIll c).cidx = s.cidx := rfl
@[simp] theorem State.recordIll_rst : (s.recordIll c).rst = s.rst := rfl
@[simp] theorem State.recordIll_capIn : (s.recordIll c).capIn = s.capIn := rfl
@[simp] theorem State.recordIll_testen : (s.recordIll c).testen = s.testen := rfl
@[simp] theorem State.recordIll_cmdPort : (s.recordIll c).cmdPort = s.cmdPort := rfl
@[simp] theorem State.recordIll_dataPort : (s.recordIll c).dataPort = s.dataPort := rfl
@[simp] theorem State.recordIll_respPort : (s.recordIll c).respPort = s.respPort := rfl
@[simp] theorem State.recordIll_draws : (s.recordIll c).draws = s.draws := rfl

end

/-! ### Fields after taking `Ill(c)` (`State.raiseIll`) -/

section
variable (c : IllCause) (e : Extent) (s : State)

@[simp] theorem State.raiseIll_S : (s.raiseIll c e).S = s.S := rfl
@[simp] theorem State.raiseIll_T : (s.raiseIll c e).T = s.T := rfl
@[simp] theorem State.raiseIll_TV : (s.raiseIll c e).TV = s.TV := rfl
@[simp] theorem State.raiseIll_CAP : (s.raiseIll c e).CAP = s.CAP := rfl
@[simp] theorem State.raiseIll_CAPV : (s.raiseIll c e).CAPV = s.CAPV := rfl
@[simp] theorem State.raiseIll_TESTEN : (s.raiseIll c e).TESTEN = s.TESTEN := rfl
@[simp] theorem State.raiseIll_ILL : (s.raiseIll c e).ILL = true := rfl
@[simp] theorem State.raiseIll_CAUSE : (s.raiseIll c e).CAUSE = if s.ILL then s.CAUSE else illCode c := rfl
@[simp] theorem State.raiseIll_READY : (s.raiseIll c e).READY = s.READY := rfl
@[simp] theorem State.raiseIll_ACC : (s.raiseIll c e).ACC = s.ACC := rfl
@[simp] theorem State.raiseIll_cidx : (s.raiseIll c e).cidx = s.cidx + 1 := rfl
@[simp] theorem State.raiseIll_rst : (s.raiseIll c e).rst = s.rst := rfl
@[simp] theorem State.raiseIll_capIn : (s.raiseIll c e).capIn = s.capIn := rfl
@[simp] theorem State.raiseIll_testen : (s.raiseIll c e).testen = s.testen := rfl
@[simp] theorem State.raiseIll_cmdPort : (s.raiseIll c e).cmdPort = s.cmdPort.drop e.words := rfl
@[simp] theorem State.raiseIll_dataPort : (s.raiseIll c e).dataPort = s.dataPort.drop e.bytes := rfl
@[simp] theorem State.raiseIll_respPort :
    (s.raiseIll c e).respPort = s.respPort ++ [⟨0, (s.recordIll c).stat, []⟩] := rfl
@[simp] theorem State.raiseIll_draws : (s.raiseIll c e).draws = s.draws := rfl

end

/-! ### Fields after the body of TGEN (`State.tgenBody`) -/

section
variable (s : State)

@[simp] theorem State.tgenBody_S : (s.tgenBody).S = s.S := rfl
@[simp] theorem State.tgenBody_T : (s.tgenBody).T = if s.TV then s.T else generate Config.slice8 s.T := rfl
@[simp] theorem State.tgenBody_TV : (s.tgenBody).TV = true := rfl
@[simp] theorem State.tgenBody_CAP : (s.tgenBody).CAP = s.CAP := rfl
@[simp] theorem State.tgenBody_CAPV : (s.tgenBody).CAPV = s.CAPV := rfl
@[simp] theorem State.tgenBody_TESTEN : (s.tgenBody).TESTEN = s.TESTEN := rfl
@[simp] theorem State.tgenBody_ILL : (s.tgenBody).ILL = s.ILL := rfl
@[simp] theorem State.tgenBody_CAUSE : (s.tgenBody).CAUSE = s.CAUSE := rfl
@[simp] theorem State.tgenBody_READY : (s.tgenBody).READY = s.READY := rfl
@[simp] theorem State.tgenBody_ACC : (s.tgenBody).ACC = s.ACC := rfl
@[simp] theorem State.tgenBody_cidx : (s.tgenBody).cidx = s.cidx := rfl
@[simp] theorem State.tgenBody_rst : (s.tgenBody).rst = s.rst := rfl
@[simp] theorem State.tgenBody_capIn : (s.tgenBody).capIn = s.capIn := rfl
@[simp] theorem State.tgenBody_testen : (s.tgenBody).testen = s.testen := rfl
@[simp] theorem State.tgenBody_cmdPort : (s.tgenBody).cmdPort = s.cmdPort := rfl
@[simp] theorem State.tgenBody_dataPort : (s.tgenBody).dataPort = s.dataPort := rfl
@[simp] theorem State.tgenBody_respPort : (s.tgenBody).respPort = s.respPort := rfl
@[simp] theorem State.tgenBody_draws : (s.tgenBody).draws = s.draws := rfl

end

/-! ### Fields after the body of PROBE (`State.probeBody`) -/

section
variable (s : State)

@[simp] theorem State.probeBody_S : (s.probeBody).S = s.S := rfl
@[simp] theorem State.probeBody_T : (s.probeBody).T = s.T := rfl
@[simp] theorem State.probeBody_TV : (s.probeBody).TV = s.TV := rfl
@[simp] theorem State.probeBody_CAP : (s.probeBody).CAP = if s.CAPV then s.CAP else s.capIn := rfl
@[simp] theorem State.probeBody_CAPV : (s.probeBody).CAPV = true := rfl
@[simp] theorem State.probeBody_TESTEN : (s.probeBody).TESTEN = s.TESTEN := rfl
@[simp] theorem State.probeBody_ILL : (s.probeBody).ILL = s.ILL := rfl
@[simp] theorem State.probeBody_CAUSE : (s.probeBody).CAUSE = s.CAUSE := rfl
@[simp] theorem State.probeBody_READY : (s.probeBody).READY = s.READY := rfl
@[simp] theorem State.probeBody_ACC : (s.probeBody).ACC = s.ACC := rfl
@[simp] theorem State.probeBody_cidx : (s.probeBody).cidx = s.cidx := rfl
@[simp] theorem State.probeBody_rst : (s.probeBody).rst = s.rst := rfl
@[simp] theorem State.probeBody_capIn : (s.probeBody).capIn = s.capIn := rfl
@[simp] theorem State.probeBody_testen : (s.probeBody).testen = s.testen := rfl
@[simp] theorem State.probeBody_cmdPort : (s.probeBody).cmdPort = s.cmdPort := rfl
@[simp] theorem State.probeBody_dataPort : (s.probeBody).dataPort = s.dataPort := rfl
@[simp] theorem State.probeBody_respPort : (s.probeBody).respPort = s.respPort := rfl
@[simp] theorem State.probeBody_draws : (s.probeBody).draws = s.draws := rfl

end

/-! ### Fields after leaving the accumulators unspecified (`State.scratchAcc`) -/

section
variable (len : Nat) (s : State)

@[simp] theorem State.scratchAcc_S : (s.scratchAcc len).S = s.S := rfl
@[simp] theorem State.scratchAcc_T : (s.scratchAcc len).T = s.T := rfl
@[simp] theorem State.scratchAcc_TV : (s.scratchAcc len).TV = s.TV := rfl
@[simp] theorem State.scratchAcc_CAP : (s.scratchAcc len).CAP = s.CAP := rfl
@[simp] theorem State.scratchAcc_CAPV : (s.scratchAcc len).CAPV = s.CAPV := rfl
@[simp] theorem State.scratchAcc_TESTEN : (s.scratchAcc len).TESTEN = s.TESTEN := rfl
@[simp] theorem State.scratchAcc_ILL : (s.scratchAcc len).ILL = s.ILL := rfl
@[simp] theorem State.scratchAcc_CAUSE : (s.scratchAcc len).CAUSE = s.CAUSE := rfl
@[simp] theorem State.scratchAcc_READY : (s.scratchAcc len).READY = s.READY := rfl
@[simp] theorem State.scratchAcc_ACC :
    (s.scratchAcc len).ACC = if s.folds len then (List.range Config.nlanes.count).map (Config.accBetweenCommands s.draws) else s.ACC := rfl
@[simp] theorem State.scratchAcc_cidx : (s.scratchAcc len).cidx = s.cidx := rfl
@[simp] theorem State.scratchAcc_rst : (s.scratchAcc len).rst = s.rst := rfl
@[simp] theorem State.scratchAcc_capIn : (s.scratchAcc len).capIn = s.capIn := rfl
@[simp] theorem State.scratchAcc_testen : (s.scratchAcc len).testen = s.testen := rfl
@[simp] theorem State.scratchAcc_cmdPort : (s.scratchAcc len).cmdPort = s.cmdPort := rfl
@[simp] theorem State.scratchAcc_dataPort : (s.scratchAcc len).dataPort = s.dataPort := rfl
@[simp] theorem State.scratchAcc_respPort : (s.scratchAcc len).respPort = s.respPort := rfl
@[simp] theorem State.scratchAcc_draws :
    (s.scratchAcc len).draws = if s.folds len then s.draws + 1 else s.draws := rfl

end

/-! ### Fields after hardware reset (`State.hardwareReset`) -/

section
variable (s : State)

@[simp] theorem State.hardwareReset_S : (s.hardwareReset).S = INIT := rfl
@[simp] theorem State.hardwareReset_T : (s.hardwareReset).T = [] := rfl
@[simp] theorem State.hardwareReset_TV : (s.hardwareReset).TV = false := rfl
@[simp] theorem State.hardwareReset_CAP : (s.hardwareReset).CAP = false := rfl
@[simp] theorem State.hardwareReset_CAPV : (s.hardwareReset).CAPV = false := rfl
@[simp] theorem State.hardwareReset_TESTEN : (s.hardwareReset).TESTEN = s.testen := rfl
@[simp] theorem State.hardwareReset_ILL : (s.hardwareReset).ILL = false := rfl
@[simp] theorem State.hardwareReset_CAUSE : (s.hardwareReset).CAUSE = 0 := rfl
@[simp] theorem State.hardwareReset_READY : (s.hardwareReset).READY = false := rfl
@[simp] theorem State.hardwareReset_ACC : (s.hardwareReset).ACC = List.replicate Config.nlanes.count 0 := rfl
@[simp] theorem State.hardwareReset_cidx : (s.hardwareReset).cidx = 0 := rfl
@[simp] theorem State.hardwareReset_rst : (s.hardwareReset).rst = s.rst := rfl
@[simp] theorem State.hardwareReset_capIn : (s.hardwareReset).capIn = s.capIn := rfl
@[simp] theorem State.hardwareReset_testen : (s.hardwareReset).testen = s.testen := rfl
@[simp] theorem State.hardwareReset_cmdPort : (s.hardwareReset).cmdPort = s.abandonFrame.cmdPort := rfl
@[simp] theorem State.hardwareReset_dataPort : (s.hardwareReset).dataPort = s.abandonFrame.dataPort := rfl
@[simp] theorem State.hardwareReset_respPort : (s.hardwareReset).respPort = s.respPort := rfl
@[simp] theorem State.hardwareReset_draws : (s.hardwareReset).draws = s.draws := rfl

end

/-! ### Fields after the whole of boot (`State.bootAll`) -/

section
variable (s : State)

@[simp] theorem State.bootAll_S : s.bootAll.S = s.S := rfl
@[simp] theorem State.bootAll_T : s.bootAll.T = if s.TV then s.T else generate Config.slice8 s.T := rfl
@[simp] theorem State.bootAll_TV : s.bootAll.TV = true := rfl
@[simp] theorem State.bootAll_CAP : s.bootAll.CAP = if s.CAPV then s.CAP else s.capIn := rfl
@[simp] theorem State.bootAll_CAPV : s.bootAll.CAPV = true := rfl
@[simp] theorem State.bootAll_TESTEN : s.bootAll.TESTEN = s.TESTEN := rfl
@[simp] theorem State.bootAll_ILL : s.bootAll.ILL = s.ILL := rfl
@[simp] theorem State.bootAll_CAUSE : s.bootAll.CAUSE = s.CAUSE := rfl
@[simp] theorem State.bootAll_READY : s.bootAll.READY = true := rfl
@[simp] theorem State.bootAll_ACC : s.bootAll.ACC = s.ACC := rfl
@[simp] theorem State.bootAll_cidx : s.bootAll.cidx = s.cidx := rfl
@[simp] theorem State.bootAll_rst : s.bootAll.rst = s.rst := rfl
@[simp] theorem State.bootAll_capIn : s.bootAll.capIn = s.capIn := rfl
@[simp] theorem State.bootAll_testen : s.bootAll.testen = s.testen := rfl
@[simp] theorem State.bootAll_cmdPort : s.bootAll.cmdPort = s.cmdPort := rfl
@[simp] theorem State.bootAll_dataPort : s.bootAll.dataPort = s.dataPort := rfl
@[simp] theorem State.bootAll_respPort : s.bootAll.respPort = s.respPort := rfl
@[simp] theorem State.bootAll_draws : s.bootAll.draws = s.draws := rfl

end

/-! ### Fields of the reset state -/

@[simp] theorem State.reset_S : State.reset.S = 0xFFFFFFFFFFFFFFFF := rfl
@[simp] theorem State.reset_T : State.reset.T = [] := rfl
@[simp] theorem State.reset_TV : State.reset.TV = false := rfl
@[simp] theorem State.reset_CAP : State.reset.CAP = false := rfl
@[simp] theorem State.reset_CAPV : State.reset.CAPV = false := rfl
@[simp] theorem State.reset_TESTEN : State.reset.TESTEN = Config.testen := rfl
@[simp] theorem State.reset_ILL : State.reset.ILL = false := rfl
@[simp] theorem State.reset_CAUSE : State.reset.CAUSE = 0 := rfl
@[simp] theorem State.reset_READY : State.reset.READY = false := rfl
@[simp] theorem State.reset_ACC : State.reset.ACC = List.replicate Config.nlanes.count 0 := rfl
@[simp] theorem State.reset_cidx : State.reset.cidx = 0 := rfl
@[simp] theorem State.reset_rst : State.reset.rst = false := rfl
@[simp] theorem State.reset_capIn : State.reset.capIn = Config.capIn := rfl
@[simp] theorem State.reset_testen : State.reset.testen = Config.testen := rfl
@[simp] theorem State.reset_cmdPort : State.reset.cmdPort = [] := rfl
@[simp] theorem State.reset_dataPort : State.reset.dataPort = [] := rfl
@[simp] theorem State.reset_respPort : State.reset.respPort = [] := rfl
@[simp] theorem State.reset_draws : State.reset.draws = 0 := rfl

end Sys2Proof.Machine
end

