-- ==== Sys2Proof/Laws/Inv.lean ====
section
/-! SUPPORT. Each shared operation keeps the invariant `Sys2Proof.Machine.State.Inv`. -/

namespace Sys2Proof.Machine

theorem illCode_ne_zero (c : IllCause) : illCode c ≠ 0 := by
  cases c <;> decide

theorem inv_hardwareReset (s : State) : s.hardwareReset.Inv where
  canonical := rfl
  inRange := fun _ _ => rfl
  built := by simp
  booted := by simp
  noCause := by simp
  cause := by simp
  lanes := by simp

theorem inv_complete {s : State} (h : s.Inv) (e : Extent) (val : Word) (dout : List Byte) :
    (s.complete e val dout).Inv :=
  ⟨h.canonical, h.inRange, h.built, h.booted, h.noCause, h.cause, h.lanes⟩

theorem inv_raiseIll {s : State} (h : s.Inv) (c : IllCause) (e : Extent) : (s.raiseIll c e).Inv := by
  refine ⟨h.canonical, h.inRange, h.built, h.booted, by simp, fun _ => ?_, h.lanes⟩
  rw [State.raiseIll_CAUSE]
  split
  · exact h.cause ‹_›
  · exact illCode_ne_zero c

/-- Every generated entry is where R40 puts it. -/
theorem generate_built {m : Memory} (hm : m.wf = true) (slice8 : Bool) (k : Nat) (i : Byte)
    (hk : k < tableCount slice8) : (generate slice8 m).read (k * 256 + i.toNat) = sliceTab k i := by
  rw [generate_read _ hm, if_pos, tabValue_entry]
  have := i.isLt
  nlinarith

theorem inv_tgenBody {s : State} (h : s.Inv) : s.tgenBody.Inv := by
  cases hT : s.TV
  · refine ⟨?_, fun a ha => ?_, fun _ k i hk => ?_, fun hr => ?_, h.noCause, h.cause, h.lanes⟩
    · simp [hT, generate_wf _ h.canonical]
    · simp only [State.tgenBody_T, hT, Bool.false_eq_true, if_false]
      rw [generate_read _ h.canonical, if_neg (by omega)]
      exact h.inRange a ha
    · simp only [State.tgenBody_T, hT, Bool.false_eq_true, if_false]
      exact generate_built h.canonical _ k i hk
    · exact absurd (h.booted hr).1 (by simp [hT])
  · refine ⟨?_, fun a ha => ?_, fun _ k i hk => ?_, fun hr => ⟨rfl, (h.booted hr).2⟩, h.noCause, h.cause, h.lanes⟩
    · simp [hT, h.canonical]
    · simp only [State.tgenBody_T, hT, if_true]
      exact h.inRange a ha
    · simp only [State.tgenBody_T, hT, if_true]
      exact h.built hT k i hk

theorem inv_probeBody {s : State} (h : s.Inv) : s.probeBody.Inv :=
  ⟨h.canonical, h.inRange, h.built, fun hr => ⟨(h.booted hr).1, rfl⟩, h.noCause, h.cause, h.lanes⟩

theorem inv_bootAll {s : State} (h : s.Inv) : s.bootAll.Inv := by
  have h1 := inv_probeBody (inv_tgenBody h)
  exact ⟨h1.canonical, h1.inRange, h1.built, fun _ => ⟨rfl, rfl⟩, h1.noCause, h1.cause, h1.lanes⟩

theorem inv_scratchAcc {s : State} (h : s.Inv) (len : Nat) : (s.scratchAcc len).Inv := by
  refine ⟨h.canonical, h.inRange, h.built, h.booted, h.noCause, h.cause, ?_⟩
  rw [State.scratchAcc_ACC]
  split
  · simp
  · exact h.lanes

/-- A host move keeps it too: it touches ports and pins only. -/
theorem inv_host {s : State} (h : s.Inv) (m : HostMove) : (m.apply s).Inv := by
  cases m <;> exact ⟨h.canonical, h.inRange, h.built, h.booted, h.noCause, h.cause, h.lanes⟩

end Sys2Proof.Machine
end

