-- ==== Sys2Proof/Laws/PerInstr.lean ====
section
/-! SUPPORT. One statement about every command as syntax, with one lemma per constructor: the first word of its
encoding tells its frame extent (spec/30_encoding.md R62, R66) and selects its row of the opcode map (R64). -/

namespace Sys2Proof.Laws.Extent

/-- The first word of the encoding tells how many words and payload bytes the frame has, and selects the row of
the command's mnemonic. -/
def Statement (i : Instr) : Prop :=
  i.wellFormed = true → ∃ (cw : Word) (rest : List Word), encode i = cw :: rest ∧
    rest.length + 1 = i.extent.words ∧ frameExtent cw = i.extent ∧
    ∃ r ∈ opcodeRows, r.mnemonic = i.mnemonic ∧ r.selects cw = true

/-- The row of UPDATE and CHECKSUM leaves LEN free. -/
theorem selects_payload (o : BitVec 8) (len : Nat) :
    commandWord o 0 len &&& 0xFFFF000000000000 = commandWord o 0 0 := by
  apply BitVec.eq_of_getLsbD_eq
  intro i hi
  have hm : (0xFFFF000000000000 : Word).getLsbD i = decide (48 ≤ i) := by
    revert hi
    revert i
    decide
  rw [BitVec.getLsbD_and, getLsbD_commandWord, getLsbD_commandWord, hm]
  by_cases h : i < 48
  · simp [h]
  · simp [h, Nat.not_lt.mp h]

theorem nop : Statement .nop := fun _ =>
  ⟨_, _, rfl, rfl, rfl, ⟨"NOP", .F0, 0x0000000000000000, 0xFFFFFFFFFFFFFFFF⟩, by decide, rfl, by decide⟩

theorem tgen : Statement .tgen := fun _ =>
  ⟨_, _, rfl, rfl, rfl, ⟨"TGEN", .F0, 0x0100000000000000, 0xFFFFFFFFFFFFFFFF⟩, by decide, rfl, by decide⟩

theorem probe : Statement .probe := fun _ =>
  ⟨_, _, rfl, rfl, rfl, ⟨"PROBE", .F0, 0x0200000000000000, 0xFFFFFFFFFFFFFFFF⟩, by decide, rfl, by decide⟩

theorem setcap (v : Bool) : Statement (.setcap v) := fun _ => by
  refine ⟨_, _, rfl, rfl, ?_, ⟨"SETCAP", .FA, 0x0300000000000000, 0xFFFEFFFFFFFFFFFF⟩, by decide, rfl, ?_⟩ <;>
    cases v <;> decide

theorem reset : Statement .reset := fun _ =>
  ⟨_, _, rfl, rfl, rfl, ⟨"RESET", .F0, 0x1000000000000000, 0xFFFFFFFFFFFFFFFF⟩, by decide, rfl, by decide⟩

theorem update (len : Nat) : Statement (.update len) := fun h => by
  refine ⟨_, _, rfl, rfl, ?_, ⟨"UPDATE", .FL, 0x1100000000000000, 0xFFFF000000000000⟩, by decide, rfl, ?_⟩
  · rw [frameExtent, opcField_commandWord, lenField_commandWord, BitVec.toNat_ofNat,
      Nat.mod_eq_of_lt ((wellFormed_update len).mp h)]
    rfl
  · rw [OpcodeRow.selects, selects_payload]
    decide

theorem sum : Statement .sum := fun _ =>
  ⟨_, _, rfl, rfl, rfl, ⟨"SUM", .F0, 0x1200000000000000, 0xFFFFFFFFFFFFFFFF⟩, by decide, rfl, by decide⟩

theorem checksum (len : Nat) : Statement (.checksum len) := fun h => by
  refine ⟨_, _, rfl, rfl, ?_, ⟨"CHECKSUM", .FL, 0x1300000000000000, 0xFFFF000000000000⟩, by decide, rfl, ?_⟩
  · rw [frameExtent, opcField_commandWord, lenField_commandWord, BitVec.toNat_ofNat,
      Nat.mod_eq_of_lt ((wellFormed_checksum len).mp h)]
    rfl
  · rw [OpcodeRow.selects, selects_payload]
    decide

theorem size : Statement .size := fun _ =>
  ⟨_, _, rfl, rfl, rfl, ⟨"SIZE", .F0, 0x1400000000000000, 0xFFFFFFFFFFFFFFFF⟩, by decide, rfl, by decide⟩

theorem blksize : Statement .blksize := fun _ =>
  ⟨_, _, rfl, rfl, rfl, ⟨"BLKSIZE", .F0, 0x1500000000000000, 0xFFFFFFFFFFFFFFFF⟩, by decide, rfl, by decide⟩

theorem rdstate : Statement .rdstate := fun _ =>
  ⟨_, _, rfl, rfl, rfl, ⟨"RDSTATE", .F0, 0x1600000000000000, 0xFFFFFFFFFFFFFFFF⟩, by decide, rfl, by decide⟩

theorem wrstate (opw : Word) : Statement (.wrstate opw) := fun _ =>
  ⟨_, _, rfl, rfl, rfl, ⟨"WRSTATE", .FW, 0x1700000000000000, 0xFFFFFFFFFFFFFFFF⟩, by decide, rfl, by decide⟩

end Sys2Proof.Laws.Extent
end

