-- ==== Sys2Proof/Laws/Step.lean ====
section
/-! SUPPORT. Once and for all, everything a step can do (`step_cases`), everything the rejection of a frame can
do (`rejectFrame_cases`), and the meaning of each command as one equation. Proofs cite these and do not unfold
`step` or `exec`. -/

namespace Sys2Proof.Machine

theorem exec_nop (s : State) : exec .nop s = .next (s.complete .word 0 []) := rfl

theorem exec_tgen (s : State) : exec .tgen s = .next (s.tgenBody.complete .word 0 []) := rfl

theorem exec_probe (s : State) :
    exec .probe s = .next (s.probeBody.complete .word (zextFlag s.probeBody.CAP) []) := rfl

theorem exec_setcap (v : Bool) (s : State) : exec (.setcap v) s =
    .next (if s.TESTEN then State.complete .word (zextFlag v) [] { s with CAP := v }
      else s.raiseIll .priv .word) := rfl

theorem exec_reset (s : State) : exec .reset s = .next (State.complete .word 0 [] { s with S := INIT }) := rfl

theorem exec_update (len : Nat) (s : State) :
    exec (.update len) s = .next (if len ≤ s.dataPort.length then s.updateBody len else s) := rfl

theorem exec_sum (s : State) :
    exec .sum s = .next (s.complete .word (invertOut s.S) (beBytes (invertOut s.S))) := rfl

theorem exec_checksum (len : Nat) (s : State) :
    exec (.checksum len) s = .next (if len ≤ s.dataPort.length then s.checksumBody len else s) := rfl

theorem exec_size (s : State) : exec .size s = .next (s.complete .word 8 []) := rfl

theorem exec_blksize (s : State) : exec .blksize s = .next (s.complete .word 1 []) := rfl

theorem exec_rdstate (s : State) : exec .rdstate s = .next (s.complete .word s.S []) := rfl

theorem exec_wrstate (opw : Word) (s : State) :
    exec (.wrstate opw) s = .next (State.complete .operand 0 [] { s with S := opw }) := rfl

/-- What `exec` answers, in one shape for all commands: the command waits, or raises Ill(3), or completes
with its extent after its own effect `u`, which is the identity, TGEN's, PROBE's, a write of CAP, a write of S,
or a write of S with the accumulators left unspecified. -/
theorem exec_cases {i : Instr} {s t : State} (h : exec i s = .next t) :
    t = s ∨ t = s.raiseIll .priv .word ∨
    ∃ (u : State) (val : Word) (dout : List Byte), t = u.complete i.extent val dout ∧
      (u = s ∨ u = s.tgenBody ∨ u = s.probeBody ∨ (s.TESTEN = true ∧ ∃ v, u = { s with CAP := v }) ∨
        (∃ v, u = { s with S := v }) ∨ ∃ len v, u = State.scratchAcc len { s with S := v }) := by
  cases i with
  | nop => cases h; exact .inr (.inr ⟨s, _, _, rfl, .inl rfl⟩)
  | tgen => cases h; exact .inr (.inr ⟨_, _, _, rfl, .inr (.inl rfl)⟩)
  | probe => cases h; exact .inr (.inr ⟨_, _, _, rfl, .inr (.inr (.inl rfl))⟩)
  | setcap v =>
    rw [exec_setcap] at h
    cases h
    by_cases hm : s.TESTEN = true
    · rw [if_pos hm]
      exact .inr (.inr ⟨_, _, _, rfl, .inr (.inr (.inr (.inl ⟨hm, v, rfl⟩)))⟩)
    · rw [if_neg hm]
      exact .inr (.inl rfl)
  | reset => cases h; exact .inr (.inr ⟨_, _, _, rfl, .inr (.inr (.inr (.inr (.inl ⟨_, rfl⟩))))⟩)
  | update len =>
    rw [exec_update] at h
    cases h
    by_cases hm : len ≤ s.dataPort.length
    · rw [if_pos hm]
      exact .inr (.inr ⟨_, _, _, rfl, .inr (.inr (.inr (.inr (.inr ⟨len, _, rfl⟩))))⟩)
    · rw [if_neg hm]
      exact .inl rfl
  | sum => cases h; exact .inr (.inr ⟨s, _, _, rfl, .inl rfl⟩)
  | checksum len =>
    rw [exec_checksum] at h
    cases h
    by_cases hm : len ≤ s.dataPort.length
    · rw [if_pos hm]
      exact .inr (.inr ⟨_, _, _, rfl, .inr (.inr (.inr (.inr (.inr ⟨len, s.S, rfl⟩))))⟩)
    · rw [if_neg hm]
      exact .inl rfl
  | size => cases h; exact .inr (.inr ⟨s, _, _, rfl, .inl rfl⟩)
  | blksize => cases h; exact .inr (.inr ⟨s, _, _, rfl, .inl rfl⟩)
  | rdstate => cases h; exact .inr (.inr ⟨s, _, _, rfl, .inl rfl⟩)
  | wrstate opw => cases h; exact .inr (.inr ⟨_, _, _, rfl, .inr (.inr (.inr (.inr (.inl ⟨_, rfl⟩))))⟩)

/-- The rejection of a frame waits, or raises Ill(1) or Ill(2) for the frame's extent once it is supplied. -/
theorem rejectFrame_cases (e : DecodeError) (s : State) :
    (s.rejectFrame e = s ∧ (e = .incomplete ∨ s.supplied s.headExtent = false)) ∨
    ∃ c, s.supplied s.headExtent = true ∧ (e = .illOpc ∧ c = .opc ∨ e = .illField ∧ c = .field) ∧
      s.rejectFrame e = s.raiseIll c s.headExtent := by
  cases hs : s.supplied s.headExtent <;> cases e <;> simp [State.rejectFrame, State.whenSupplied, hs]

/-- Everything a step can do. -/
theorem step_cases {s t : State} (h : step s = .next t) :
    (s.rst = true ∧ t = s.hardwareReset) ∨
    (s.rst = false ∧ s.READY = false ∧ t = s.bootStep) ∨
    (s.rst = false ∧ s.READY = true ∧ ∃ i, decode s.cmdPort = .ok i ∧ exec i s = .next t) ∨
    (s.rst = false ∧ s.READY = true ∧ ∃ e, decode s.cmdPort = .error e ∧ t = s.rejectFrame e) := by
  unfold step at h
  cases hr : s.rst <;> cases hb : s.READY <;> simp only [hr, hb] at h
  · exact .inr (.inl ⟨rfl, rfl, by simpa using h.symm⟩)
  · cases hd : decode s.cmdPort with
    | ok i => exact .inr (.inr (.inl ⟨rfl, rfl, i, rfl, by simpa [hd] using h⟩))
    | error e => exact .inr (.inr (.inr ⟨rfl, rfl, e, rfl, by simpa [hd] using h.symm⟩))
  · exact .inl ⟨rfl, by simpa using h.symm⟩
  · exact .inl ⟨rfl, by simpa using h.symm⟩

theorem step_of_decode {s : State} {i : Instr} (hr : s.rst = false) (hb : s.READY = true)
    (hd : decode s.cmdPort = .ok i) : step s = exec i s := by
  simp [step, hr, hb, hd]

theorem step_of_reject {s : State} {e : DecodeError} (hr : s.rst = false) (hb : s.READY = true)
    (hd : decode s.cmdPort = .error e) : step s = .next (s.rejectFrame e) := by
  simp [step, hr, hb, hd]

theorem bootStep_tgen {s : State} (h : s.TV = false) : s.bootStep = s.tgenBody := by
  rw [State.bootStep, h]
  rfl

theorem bootStep_probe {s : State} (hT : s.TV = true) (hC : s.CAPV = false) : s.bootStep = s.probeBody := by
  rw [State.bootStep, hT, hC]
  rfl

theorem bootStep_ready {s : State} (hT : s.TV = true) (hC : s.CAPV = true) :
    s.bootStep = { s with READY := true } := by
  rw [State.bootStep, hT, hC]
  rfl

theorem step_of_boot {s : State} (hr : s.rst = false) (hb : s.READY = false) : step s = .next s.bootStep := by
  simp [step, hr, hb]

theorem step_of_rst {s : State} (hr : s.rst = true) : step s = .next s.hardwareReset := by
  simp [step, hr]

/-- The three steps of boot. -/
theorem bootStep_cases (s : State) :
    (s.TV = false ∧ s.bootStep = s.tgenBody) ∨
    (s.TV = true ∧ s.CAPV = false ∧ s.bootStep = s.probeBody) ∨
    (s.TV = true ∧ s.CAPV = true ∧ s.bootStep = { s with READY := true }) := by
  unfold State.bootStep
  cases s.TV <;> cases s.CAPV <;> simp

end Sys2Proof.Machine
end

