-- ==== Sys2Proof/Laws/Run.lean ====
section
/-! SUPPORT. Runs of several steps (`Host.Core.run`), the step on an illegal frame, and the effect of a fault as
`Sys2Proof.Machine.State.faulted` writes it out. -/

namespace Sys2Proof.Machine

theorem run_zero (s : State) : core.run 0 s = .next s := rfl

/-- A run of one more step, when its first step goes on. -/
theorem run_of_step {s t : State} (n : Nat) (h : step s = .next t) : core.run (n + 1) s = core.run n t := by
  have h' : core.step s = .next t := h
  simp only [Host.Core.run, h']

theorem run_one {s t : State} (h : step s = .next t) : core.run 1 s = .next t :=
  (run_of_step 0 h).trans (run_zero t)

/-- A run in two parts. -/
theorem run_add {s t : State} (m n : Nat) (h : core.run m s = .next t) : core.run (m + n) s = core.run n t := by
  induction m generalizing s with
  | zero => cases h; rw [Nat.zero_add]
  | succ m ih =>
    cases hs : step s with
    | next u =>
      rw [run_of_step m hs] at h
      rw [Nat.succ_add, run_of_step (m + n) hs, ih h]
    | fault r => cases r
    | refused r =>
      have h' : core.step s = .refused r := hs
      simp only [Host.Core.run, h'] at h
      cases h

/-- The whole of boot, from the state a hardware reset leaves. -/
theorem run_boot {s : State} (hr : s.rst = false) (hb : s.READY = false) (hT : s.TV = false) (hC : s.CAPV = false) :
    core.run 3 s = .next s.bootAll := by
  rw [run_of_step 2 (step_of_boot hr hb), bootStep_tgen hT,
    run_of_step 1 (step_of_boot (s := s.tgenBody) hr hb), bootStep_probe (s := s.tgenBody) rfl hC,
    run_one (step_of_boot (s := s.tgenBody.probeBody) hr hb), bootStep_ready (s := s.tgenBody.probeBody) rfl rfl]
  rfl

theorem headExtent_of_cons {s : State} {cw : Word} {rest : List Word} (h : s.cmdPort = cw :: rest) :
    s.headExtent = frameExtent cw := by
  rw [State.headExtent, h, List.headD_cons]

theorem supplied_iff (s : State) (e : Extent) :
    s.supplied e = true ↔ e.words ≤ s.cmdPort.length ∧ e.bytes ≤ s.dataPort.length := by
  simp [State.supplied]

/-- The step on a supplied frame of a reserved opcode. -/
theorem step_of_illOpc {s : State} {cw : Word} {rest : List Word} (h : s.Accepting) (hc : s.cmdPort = cw :: rest)
    (hs : s.supplied (frameExtent cw) = true) (hd : decode s.cmdPort = .error .illOpc) :
    step s = .next (s.raiseIll .opc (frameExtent cw)) := by
  rw [step_of_reject h.1 h.2 hd, State.rejectFrame, headExtent_of_cons hc, State.whenSupplied, if_pos hs]

/-- The step on a supplied frame with a non-zero must-be-zero field. -/
theorem step_of_illField {s : State} {cw : Word} {rest : List Word} (h : s.Accepting) (hc : s.cmdPort = cw :: rest)
    (hs : s.supplied (frameExtent cw) = true) (hd : decode s.cmdPort = .error .illField) :
    step s = .next (s.raiseIll .field (frameExtent cw)) := by
  rw [step_of_reject h.1 h.2 hd, State.rejectFrame, headExtent_of_cons hc, State.whenSupplied, if_pos hs]

/-- The step on a frame, legal or not, whose words do not decode to a command and that is not there in full. -/
theorem step_of_unsupplied {s : State} {e : DecodeError} (h : s.Accepting) (hs : s.supplied s.headExtent = false)
    (hd : decode s.cmdPort = .error e) : step s = .next s := by
  rw [step_of_reject h.1 h.2 hd]
  cases e <;> simp [State.rejectFrame, State.whenSupplied, hs]

/-- Taking the exception, field by field (spec/60_exceptions.md R151). -/
theorem raiseIll_eq_faulted (s : State) (c : IllCause) (e : Extent) :
    s.raiseIll c e = s.faulted (illCode c) e.words e.bytes := rfl

end Sys2Proof.Machine
end

