-- ==== Sys2Proof/Tests/Slice0.lean ====
section
/-! SUPPORT. The model's own tests. Part 1: well-formedness. Part 2: decoding of words written out from
spec/30_encoding.md R61 and R64. Part 3: values of the units, all from spec/95_test_vectors.md (the section is
named at each). Part 4: single steps, from spec/95_test_vectors.md sections 2.5, 7.2, 7.3 and 8 (P1 to P6).
Part 5: a witness for the hypotheses of each obligation. -/

namespace Sys2Proof.Tests

open Sys2Proof.Machine

/-! ## Part 1: well-formedness (LEN is a 48-bit number, R61, R63) -/

theorem test_wellFormed_refuses_long_update : (Instr.update (2 ^ 48)).wellFormed = false := by decide

theorem test_wellFormed_refuses_long_checksum : (Instr.checksum (2 ^ 48)).wellFormed = false := by decide

theorem test_wellFormed_longest : (Instr.update (2 ^ 48 - 1)).wellFormed = true ∧
    (Instr.checksum (2 ^ 48 - 1)).wellFormed = true := by decide

/-! ## Part 2: decoding (section 7.1) -/

theorem test_decode_group0 : decode [0x0000000000000000] = .ok .nop ∧ decode [0x0100000000000000] = .ok .tgen ∧
    decode [0x0200000000000000] = .ok .probe ∧ decode [0x0300000000000000] = .ok (.setcap false) ∧
    decode [0x0301000000000000] = .ok (.setcap true) := by decide

theorem test_decode_group1 : decode [0x1000000000000000] = .ok .reset ∧ decode [0x1200000000000000] = .ok .sum ∧
    decode [0x1400000000000000] = .ok .size ∧ decode [0x1500000000000000] = .ok .blksize ∧
    decode [0x1600000000000000] = .ok .rdstate := by decide

theorem test_decode_payload : decode [0x1100000000000009] = .ok (.update 9) ∧
    decode [0x1100000000000000] = .ok (.update 0) ∧ decode [0x1100FFFFFFFFFFFF] = .ok (.update 281474976710655) ∧
    decode [0x13000000000F4240] = .ok (.checksum 1000000) := by decide

theorem test_decode_operand : decode [0x1700000000000000, 0x0123456789ABCDEF] = .ok (.wrstate 0x0123456789ABCDEF) ∧
    decode [0x1700000000000000] = .error .incomplete ∧ decode [] = .error .incomplete := by decide

theorem test_decode_reserved : decode [0x0400000000000000] = .error .illOpc ∧
    decode [0x0F00000000000000] = .error .illOpc ∧ decode [0x1800000000000000] = .error .illOpc ∧
    decode [0xFF00000000000005] = .error .illOpc := by decide

theorem test_decode_fields : decode [0x0000000000000001] = .error .illField ∧
    decode [0x1280000000000000] = .error .illField ∧ decode [0x0302000000000000] = .error .illField ∧
    decode [0x0300000000000001] = .error .illField ∧ decode [0x1101000000000003] = .error .illField ∧
    decode [0x1301000000000000] = .error .illField ∧ decode [0x1700000000000001, 0] = .error .illField := by decide

theorem test_extent : frameExtent 0x1100FFFFFFFFFFFF = .payload 281474976710655 ∧
    frameExtent 0x1101000000000003 = .payload 3 ∧ frameExtent 0x1700000000000001 = .operand ∧
    frameExtent 0xFF00000000000005 = .word := by decide

theorem test_table_word : decodeTableWord 64 0x0301000000000000 = some (.setcap true) ∧
    decodeTableWord 64 0x1100000000000009 = some (.update 9) ∧
    decodeTableWord 64 0x1700000000000000 = some (.wrstate 0) ∧ decodeTableWord 64 0x0400000000000000 = none := by
  decide

/-- R68 and R69: lines and their frames. -/
theorem test_assemble : assemble "CHECKSUM ramp(3)" = some [⟨[0x1300000000000003], [0x00, 0x01, 0x02]⟩] ∧
    assemble "UPDATE x\"FF\"" = some [⟨[0x1100000000000001], [0xFF]⟩] ∧
    assemble "CHECKSUM \"\"" = some [⟨[0x1300000000000000], []⟩] ∧
    assemble "UPDATE zeros(2)" = some [⟨[0x1100000000000002], [0, 0]⟩] ∧
    assemble "SETCAP 1" = some [⟨[0x0301000000000000], []⟩] ∧ assemble "FORCETABLE" = some [⟨[0x0300000000000000], []⟩] ∧
    assemble "NEW" = some [⟨[0x1000000000000000], []⟩] ∧ assemble "RDSTAT" = some [⟨[0x0000000000000000], []⟩] ∧
    assemble "SUM 1" = none ∧ assemble "SETCAP 2" = none ∧ assemble "WRSTATE 12" = none := by decide +kernel

/-- A payload of 2^48 bytes is refused (log entry 21), whichever command carries it. -/
theorem test_assemble_too_long : assemble "UPDATE zeros(281474976710656)" = none ∧
    assemble "HASH ramp(281474976710656)" = none ∧ (AsmLine.checksum (.zeros 281474976710655)).encodable = true := by
  decide +kernel

/-! ## Part 3: the units -/

/-- `ramp(n)` (section 0). -/
def ramp (n : Nat) : List Byte := (List.range n).map fun i => BitVec.ofNat 8 i

/-- The bytes of "123456789". -/
def nine : List Byte := [0x31, 0x32, 0x33, 0x34, 0x35, 0x36, 0x37, 0x38, 0x39]

/-- The raw state all ones. -/
def ones : Word := 0xFFFFFFFFFFFFFFFF

/-- Section 2.1. -/
theorem test_bitStep : bitStep 0x80 = 0x40 ∧ bitStep 3 = 0x9A6C9329AC4BC9B4 ∧
    bitStep 0x8000000000000000 = 0x4000000000000000 ∧ bitStep 0xFFFFFFFFFFFFFFFF = 0xE5936CD653B4364A ∧
    bitStep 0x9A6C9329AC4BC9B5 = 0xD75ADABD7A6E2D6F := by decide +kernel

/-- Sections 2.2 and 2.3. -/
theorem test_tabEntry : tabEntry 0x01 = 0x7F6EF0C830358979 ∧ tabEntry 0x02 = 0xFEDDE190606B12F2 ∧
    tabEntry 0xFF = 0x2ADA5047EFEC8728 ∧ tabEntry 0x53 = 0x2E0934DEA28ED965 ∧ tabEntry 0xCE = 0xDC95A1C3461BBED2 := by
  decide +kernel

/-- Section 2.4. -/
theorem test_sliceTab : sliceTab 1 1 = 0x8776A97D73BDDF69 ∧ sliceTab 2 2 = 0xCA05BA6DC417E217 ∧
    sliceTab 4 128 = 0x41088A3E5D7CB183 ∧ sliceTab 7 1 = 0x21E9761E252621AC ∧ sliceTab 7 255 = 0x4B6C30A789F1084B := by
  decide +kernel

/-- Section 2.3, read from a table RAM that TGEN has filled. -/
theorem test_generated_ram : (generate false []).read 1 = 0x7F6EF0C830358979 ∧
    (generate false []).read 128 = 0x9A6C9329AC4BC9B5 ∧ (generate false []).read 0 = 0 ∧
    (generate false []).wf = true := by decide +kernel

/-- Section 3.1. -/
theorem test_refStep : refStep tabValue 0xFFFFFFFFFFFFFFFF 0x00 = 0x2A25AFB8101378D7 ∧
    refStep tabValue 0xFFFFFFFFFFFFFFFF 0x31 = 0xDC6A5E3CB9E4412D ∧
    refStep tabValue 0x0123456789ABCDEF 0xEF = 0x000123456789ABCD ∧
    refStep tabValue 0x000123456789ABCD 0x10 = 0x25C64E83DB9CC373 := by decide +kernel

/-- Sections 3.2 and 3.3. -/
theorem test_refUpd : refUpd tabValue ones [0x31, 0x32, 0x33, 0x34] = 0xD60A24181D008E2B ∧
    refUpd tabValue ones nine = 0x5174EB79F5866777 ∧ refUpd tabValue 0 nine = 0x7800C064D4A83784 ∧
    refUpd tabValue 0x0123456789ABCDEF [] = 0x0123456789ABCDEF ∧
    refUpd tabValue 0x0123456789ABCDEF (ramp 20) = 0x8DEF5E1E09020A8E := by decide +kernel

/-- Section 3.4. -/
theorem test_slice8 : le64 nine 0 = 0x3837363534333231 ∧
    sliceLookups tabValue 0xC7C8C9CACBCCCDCE = 0x132F6F673D376B6B ∧
    slice8Upd tabValue ones nine = 0x5174EB79F5866777 := by decide +kernel

/-- Section 4. -/
theorem test_clmul : clmul64 3 3 = 5 ∧
    clmul64 0x8000000000000001 0x8000000000000001 = 0x40000000000000000000000000000001 ∧
    clmul64 0xDEADBEEFCAFEBABE 0x0123456789ABCDEF = 0x00C42FDE8B6B5592F099825FE2AF618A ∧
    clmul64 0xFFFFFFFFFFFFFFFF 0xFFFFFFFFFFFFFFFF = 0x55555555555555555555555555555555 := by decide +kernel

/-- Sections 5.0a and 5.2. -/
theorem test_fold128 : fold128 0x0F0E0D0C0B0A0908F8F9FAFBFCFDFEFF K191 K127 = 0x5AC9487C37B06864673511FB692F5280 ∧
    fold128 0x0123456789ABCDEFFEDCBA9876543210 (KHI_B .two) (KLO_B .two) = 0x6FCF8B89A6E64B09643E6F84AD17AF04 := by
  decide +kernel

/-- Sections 5.0a and 5.1. -/
theorem test_reduce128 : reduce128 0x0F0E0D0C0B0A0908F8F9FAFBFCFDFEFF = 0x309BAB38A206A9DF ∧
    reduce128 0x0123456789ABCDEFFEDCBA9876543210 = 0x3A84D888F867E712 ∧
    reduce128 0xFFFFFFFFFFFFFFFFFFFFFFFFFFFFFFFF = 0xB5FCDD65D113C2C6 ∧ reduce128 1 = 0xEADC41FD2BA3D420 := by
  decide +kernel

/-- Sections 5.1 and 5.3: the accumulators. -/
theorem test_accumulators :
    foldBlocks .one ones (ramp 16) 1 = [0x0F0E0D0C0B0A0908F8F9FAFBFCFDFEFF] ∧
    foldBlocks .two ones (ramp 64) 2 = [0x46054BFDD0C427C9A138016526E87C40, 0x3C91985F96720BA26017697CDBE5EB90] := by
  decide +kernel

/-- Section 5.5: three blocks and a tail for each NLANES. -/
theorem test_foldUpd : foldUpd .one false tabValue ones (ramp 53) = 0x850CFDFAD482F0FB ∧
    foldUpd .two true tabValue ones (ramp 101) = 0xAB61241BF6CC6110 ∧
    foldUpd .four true tabValue ones (ramp 197) = 0xD34223CBE608DB7E ∧
    foldUpd .eight false tabValue ones (ramp 389) = 0x3BDBF297AB9D04C7 := by decide +kernel

/-- Section 5.5: the lengths around one block. -/
theorem test_foldUpd_boundaries : foldUpd .one false tabValue ones (ramp 15) = 0xAAA028E2A7EB5A18 ∧
    foldUpd .one false tabValue ones (ramp 16) = 0x309BAB38A206A9DF ∧
    foldUpd .one false tabValue ones (ramp 17) = 0xA3CBCAA04E8C3102 ∧
    foldUpd .eight true tabValue ones (ramp 127) = 0x7E21A1336CD8A9A3 := by decide +kernel

/-- Sections 3.2 and 6.1: both paths on a table RAM that TGEN has filled. -/
theorem test_dispatch :
    dispatch false .one false (generate false []).read ones nine = 0x5174EB79F5866777 ∧
    dispatch true .one false (generate false []).read ones (ramp 40) = 0x229678B986052000 := by decide +kernel

/-- Section 6.1: complement and digest. -/
theorem test_digest : invertOut 0x5174EB79F5866777 = 0xAE8B14860A799888 ∧
    beBytes 0xAE8B14860A799888 = [0xAE, 0x8B, 0x14, 0x86, 0x0A, 0x79, 0x98, 0x88] := by decide

/-! ## Part 4: single steps -/

/-- A ready engine with the given CAP and TESTEN, S, and input ports. Its table RAM is not looked at. -/
def ready (cap testen : Bool) (crc : Word) (words : List Word) (payload : List Byte) : State :=
  { State.reset with
    S := crc, TV := true, CAP := cap, CAPV := true, TESTEN := testen, READY := true
    cmdPort := words, dataPort := payload }

/-- The state after one step. -/
def after (s : State) : State :=
  match step s with
  | .next t => t
  | .fault r => nomatch r
  | .refused _ => s

/-- What a test looks at after one step. -/
structure Seen where
  resp : List Response
  S : Word
  CAP : Bool
  ILL : Bool
  CAUSE : BitVec 2
  TV : Bool
  CAPV : Bool
  READY : Bool
  cidx : Nat
deriving DecidableEq

/-- The responses and the registers after one step. -/
def seen (s : State) : Seen :=
  ⟨(after s).respPort, (after s).S, (after s).CAP, (after s).ILL, (after s).CAUSE, (after s).TV, (after s).CAPV,
    (after s).READY, (after s).cidx⟩

/-- P6 and P3: NOP shows the status of the four launch states (section 7.2). -/
theorem test_nop :
    seen (ready false false ones [0] []) = ⟨[⟨0, 0x07, []⟩], ones, false, false, 0, true, true, true, 1⟩ ∧
    (after (ready true false ones [0] [])).respPort = [⟨0, 0x0F, []⟩] ∧
    (after (ready false true ones [0] [])).respPort = [⟨0, 0x17, []⟩] ∧
    (after (ready true true ones [0] [])).respPort = [⟨0, 0x1F, []⟩] := by decide

/-- Section 2.5: a TGEN frame finds TV = 1. -/
theorem test_tgen : (after (ready false false 5 [0x0100000000000000] [])).respPort = [⟨0, 0x07, []⟩] ∧
    (after (ready false false 5 [0x0100000000000000] [])).S = 5 ∧
    (after (ready false false 5 [0x0100000000000000] [])).T = [] := by decide

/-- R120: a PROBE frame reports CAP, whatever `cap_in` is. -/
theorem test_probe :
    seen ({ ready true false ones [0x0200000000000000] [] with capIn := false }) =
      ⟨[⟨1, 0x0F, []⟩], ones, true, false, 0, true, true, true, 1⟩ ∧
    (after { ready false true ones [0x0200000000000000] [] with capIn := true }).respPort = [⟨0, 0x17, []⟩] := by
  decide

/-- P3, frames 3 and 6. -/
theorem test_setcap :
    seen (ready true true ones [0x0300000000000000] []) =
      ⟨[⟨0, 0x17, []⟩], ones, false, false, 0, true, true, true, 1⟩ ∧
    seen (ready false true ones [0x0301000000000000] []) =
      ⟨[⟨1, 0x1F, []⟩], ones, true, false, 0, true, true, true, 1⟩ := by decide

/-- Section 7.3: SETCAP in production mode. -/
theorem test_setcap_production :
    seen (ready false false ones [0x0301000000000000] []) =
      ⟨[⟨0, 0xE7, []⟩], ones, false, true, 3, true, true, true, 1⟩ ∧
    seen (ready true false ones [0x0300000000000000] []) =
      ⟨[⟨0, 0xEF, []⟩], ones, true, true, 3, true, true, true, 1⟩ := by decide

/-- R131. -/
theorem test_reset : seen (ready true false 0x5174EB79F5866777 [0x1000000000000000] []) =
    ⟨[⟨0, 0x0F, []⟩], ones, true, false, 0, true, true, true, 1⟩ := by decide

/-- P1, frame 2: the response of UPDATE and what it takes from the ports. -/
theorem test_update_response :
    (after (ready false false ones [0x1100000000000004, 0x12] [0x31, 0x32, 0x33, 0x34, 0x99])).respPort =
      [⟨4, 0x07, []⟩] ∧
    (after (ready false false ones [0x1100000000000004, 0x12] [0x31, 0x32, 0x33, 0x34, 0x99])).dataPort = [0x99] ∧
    (after (ready false false ones [0x1100000000000004, 0x12] [0x31, 0x32, 0x33, 0x34, 0x99])).cmdPort = [0x12] := by
  decide

/-- R159: UPDATE waits for its payload. -/
theorem test_update_waits :
    seen (ready false false 7 [0x1100000000000004] [0x31, 0x32, 0x33]) =
      ⟨[], 7, false, false, 0, true, true, true, 0⟩ ∧
    (after (ready false false 7 [0x1100000000000004] [0x31, 0x32, 0x33])).cmdPort = [0x1100000000000004] := by decide

/-- P1, frame 4, and P5, frame 5. -/
theorem test_sum :
    seen (ready false false 0x5174EB79F5866777 [0x1200000000000000] []) =
      ⟨[⟨0xAE8B14860A799888, 0x07, [0xAE, 0x8B, 0x14, 0x86, 0x0A, 0x79, 0x98, 0x88]⟩], 0x5174EB79F5866777, false, false,
        0, true, true, true, 1⟩ ∧
    (after (ready true false 0x00FFFFFFFFFFFFFF [0x1200000000000000] [])).respPort =
      [⟨0xFF00000000000000, 0x0F, [0xFF, 0, 0, 0, 0, 0, 0, 0]⟩] := by decide

/-- P5, frame 2: the empty payload. -/
theorem test_checksum_empty :
    (refPath false (ready true false 9 [] []).T.read INIT []) = ones ∧ invertOut INIT = 0 ∧
    (after (ready true false 9 [0x1300000000000000] [])).S = 9 := by decide

/-- P5, frames 6 and 7. -/
theorem test_size_blksize :
    (after (ready true false 0 [0x1400000000000000] [])).respPort = [⟨8, 0x0F, []⟩] ∧
    (after (ready true false 0 [0x1500000000000000] [])).respPort = [⟨1, 0x0F, []⟩] := by decide

/-- P2, frame 2. -/
theorem test_rdstate : seen (ready true false 0x90BF7B63ED86E89D [0x1600000000000000] []) =
    ⟨[⟨0x90BF7B63ED86E89D, 0x0F, []⟩], 0x90BF7B63ED86E89D, true, false, 0, true, true, true, 1⟩ := by decide

/-- P2, frame 6. -/
theorem test_wrstate : seen (ready true false 0 [0x1700000000000000, 0x90BF7B63ED86E89D] []) =
    ⟨[⟨0, 0x0F, []⟩], 0x90BF7B63ED86E89D, true, false, 0, true, true, true, 1⟩ := by decide

/-- Section 7.3: cause 1, and the LEN field of a reserved opcode claims no payload. -/
theorem test_fault_opc :
    seen (ready false false ones [0x0400000000000000] []) =
      ⟨[⟨0, 0x67, []⟩], ones, false, true, 1, true, true, true, 1⟩ ∧
    (after (ready false false ones [0xFF00000000000005] [1, 2])).respPort = [⟨0, 0x67, []⟩] ∧
    (after (ready false false ones [0xFF00000000000005] [1, 2])).dataPort = [1, 2] := by decide

/-- Section 7.3: cause 2, before the TESTEN check, and in test mode. -/
theorem test_fault_field :
    seen (ready false false ones [0x0302000000000000] []) =
      ⟨[⟨0, 0xA7, []⟩], ones, false, true, 2, true, true, true, 1⟩ ∧
    (after (ready false true ones [0x0300000000000001] [])).respPort = [⟨0, 0xB7, []⟩] ∧
    (after (ready false false ones [0x1280000000000000] [])).respPort = [⟨0, 0xA7, []⟩] := by decide

/-- Section 7.3: the payload and the operand word of an illegal frame are consumed and discarded. -/
theorem test_fault_frame_consumed :
    seen (ready false false ones [0x1101000000000003] [0x78, 0x79, 0x7A]) =
      ⟨[⟨0, 0xA7, []⟩], ones, false, true, 2, true, true, true, 1⟩ ∧
    (after (ready false false ones [0x1101000000000003] [0x78, 0x79, 0x7A])).dataPort = [] ∧
    seen (ready false false ones [0x1700000000000001, 0x1234] []) =
      ⟨[⟨0, 0xA7, []⟩], ones, false, true, 2, true, true, true, 1⟩ ∧
    (after (ready false false ones [0x1700000000000001, 0x1234] [])).cmdPort = [] := by decide

/-- P4, frame 3: CAUSE keeps the first cause. -/
theorem test_fault_first_cause :
    seen { ready false false 5 [0xFF00000000000005] [] with ILL := true, CAUSE := 3 } =
      ⟨[⟨0, 0xE7, []⟩], 5, false, true, 3, true, true, true, 1⟩ := by decide

/-- P6: the rows of boot, with `cap_in = 1` and `testen = 0`; a held word waits for READY. -/
def held : State := { State.reset with capIn := true, testen := false, TESTEN := false, cmdPort := [0] }

theorem test_boot_tgen : seen held = ⟨[], ones, false, false, 0, true, false, false, 0⟩ ∧
    (after held).cmdPort = [0] := by decide

theorem test_boot_probe :
    seen { held with TV := true } = ⟨[], ones, true, false, 0, true, true, false, 0⟩ ∧
    seen { held with TV := true, CAP := true, CAPV := true } = ⟨[], ones, true, false, 0, true, true, true, 0⟩ := by
  decide

/-- P6, last line: a second `rst` clears everything but the strap. -/
theorem test_hardware_reset :
    seen { ready true false 9 [0x1100000000000004, 0] [1] with rst := true, ILL := true, CAUSE := 2, cidx := 4 } =
      ⟨[], ones, false, false, 0, false, false, false, 0⟩ ∧
    (after { ready true false 9 [0x1100000000000004, 0] [1] with rst := true }).cmdPort = [0] ∧
    (after { ready true false 9 [] [] with rst := true, testen := true }).TESTEN = true := by decide

/-- R159: an empty command port holds the state. -/
theorem test_idle : seen (ready true false 9 [] [1]) = ⟨[], 9, true, false, 0, true, true, true, 0⟩ ∧
    (after (ready true false 9 [] [1])).dataPort = [1] := by decide

/-- R170: the host may discard its input only around a hardware reset. -/
theorem test_discard : (HostMove.discardInput.apply held).cmdPort = [] ∧
    (HostMove.discardInput.apply (ready true false 9 [0] [1])).cmdPort = [0] := by decide

/-- The first step on a placed word runs the decoded command. -/
theorem test_withFetchWord :
    step (State.reset.withFetchWord 64 0x1100FFFFFFFFFFFF) =
      exec (.update 281474976710655) (State.reset.withFetchWord 64 0x1100FFFFFFFFFFFF) ∧
    step (State.reset.withFetchWord 64 0x1700000000000000) =
      exec (.wrstate 0) (State.reset.withFetchWord 64 0x1700000000000000) := ⟨rfl, rfl⟩

/-! ## Part 5: witnesses

For each obligation with hypotheses, a concrete state and operands that meet all of them together, clause by
clause. -/

/-- The launch state: reset and the three steps of boot. -/
def launch : State := State.reset.bootAll

theorem launch_reachable : Reachable launch := by
  have h1 : Reachable State.reset.tgenBody :=
    .step .reset ((step_of_boot rfl rfl).trans (by rw [bootStep_tgen rfl]))
  have h2 : Reachable State.reset.tgenBody.probeBody :=
    .step h1 ((step_of_boot rfl rfl).trans (by rw [bootStep_probe rfl rfl]))
  exact .step h2 ((step_of_boot rfl rfl).trans (by rw [bootStep_ready rfl rfl]; rfl))

theorem launch_idle : launch.Idle := ⟨⟨rfl, rfl⟩, rfl, rfl⟩

theorem launch_inv : launch.Inv := inv_bootAll (inv_hardwareReset State.reset)

theorem witness_DecodeInvertsEncode : (Instr.update (2 ^ 48 - 1)).wellFormed = true ∧
    (Instr.checksum 0).wellFormed = true ∧ (Instr.wrstate 5).wellFormed = true := by decide

theorem witness_EncodeInvertsDecode : decode [0x1100FFFFFFFFFFFF, 7] = .ok (.update (2 ^ 48 - 1)) ∧
    decode [0x1700000000000000, 7, 8] = .ok (.wrstate 7) := by decide

theorem witness_DecodeSelectsTheRow :
    ⟨"SETCAP", .FA, 0x0300000000000000, 0xFFFEFFFFFFFFFFFF⟩ ∈ opcodeRows ∧
    OpcodeRow.selects ⟨"SETCAP", .FA, 0x0300000000000000, 0xFFFEFFFFFFFFFFFF⟩ 0x0301000000000000 = true ∧
    decode [0x0301000000000000, 0] = .ok (.setcap true) ∧ (Instr.setcap true).mnemonic = "SETCAP" := by decide

theorem witness_IllegalWordCauses : opcField 0x1800000000000000 ∉ assignedOpcodes ∧
    opcField 0x0302000000000000 ∈ assignedOpcodes ∧
    ∀ r ∈ opcodeRows, r.selects 0x0302000000000000 = false := by decide

/-- The three clauses: LEN bytes exactly there (LEN = 2, and LEN = 0 of an illegal frame), an operand word, and a
reserved opcode with a LEN field. -/
theorem witness_FrameExtentByOpcAlone :
    ((ready false false 0 [0x1100000000000002] [1, 2]).Accepting ∧ opcField 0x1100000000000002 = 0x11 ∧
      (lenField 0x1100000000000002).toNat ≤ (ready false false 0 [0x1100000000000002] [1, 2]).dataPort.length) ∧
    (opcField 0x1301000000000000 = 0x13 ∧ (lenField 0x1301000000000000).toNat = 0) ∧
    ((ready false false 0 [0x1700000000000001, 5] []).cmdPort = 0x1700000000000001 :: 5 :: [] ∧
      opcField 0x1700000000000001 = 0x17) ∧
    ((ready false false 0 [0xFF00000000000005] []).cmdPort = 0xFF00000000000005 :: [] ∧
      opcField 0xFF00000000000005 ≠ 0x11 ∧ opcField 0xFF00000000000005 ≠ 0x13 ∧
      opcField 0xFF00000000000005 ≠ 0x17) :=
  ⟨⟨⟨rfl, rfl⟩, by decide⟩, by decide, by decide, by decide⟩

theorem witness_StepRunsDecodedCommand :
    (ready true false 0 [0x1700000000000000, 5, 0] []).Accepting ∧ (Instr.wrstate 5).wellFormed = true ∧
    (ready true false 0 [0x1700000000000000, 5, 0] []).cmdPort = encode (.wrstate 5) ++ [0] :=
  ⟨⟨rfl, rfl⟩, by decide⟩

/-- Both disjuncts: an idle step and a completed frame. -/
theorem witness_OneResponsePerFrame :
    ((ready true false 0 [] []).rst = false ∧
      step (ready true false 0 [] []) = .next (ready true false 0 [] [])) ∧
    ((ready true false 0 [0] []).rst = false ∧
      step (ready true false 0 [0] []) = .next (after (ready true false 0 [0] []))) :=
  ⟨⟨rfl, rfl⟩, rfl, rfl⟩

/-- The three clauses; the payload of the second is one byte short. -/
theorem witness_IdleOrWaitingHoldsState :
    ((ready true false 0 [] [3]).Accepting ∧ (ready true false 0 [] [3]).cmdPort = []) ∧
    ((ready true false 0 [0x1100000000000003] [1, 2]).Accepting ∧ opcField 0x1100000000000003 = 0x11 ∧
      (ready true false 0 [0x1100000000000003] [1, 2]).dataPort.length < (lenField 0x1100000000000003).toNat) ∧
    ((ready true false 0 [0x1700000000000000] []).Accepting ∧ opcField 0x1700000000000000 = 0x17) :=
  ⟨⟨⟨rfl, rfl⟩, rfl⟩, ⟨⟨rfl, rfl⟩, by decide⟩, ⟨rfl, rfl⟩, by decide⟩

theorem witness_BootSequence : State.reset.rst = false ∧ State.reset.READY = false ∧ State.reset.TV = false ∧
    State.reset.CAPV = false ∧ State.reset.T.wf = true := ⟨rfl, rfl, rfl, rfl, rfl⟩

theorem witness_HoldUntilReady : held.rst = false ∧ held.READY = false ∧ held.cmdPort = [0] ∧
    step { held with TV := true } = .next (after { held with TV := true }) := ⟨rfl, rfl, rfl, rfl⟩

/-- Both clauses; the second with all three flags set. -/
theorem witness_HardwareReset :
    ({ ready true false 9 [0] [] with rst := true }.rst = true ∧
      step { ready true false 9 [0] [] with rst := true } =
        .next (State.hardwareReset { ready true false 9 [0] [] with rst := true })) ∧
    ({ ready true false 9 [0] [] with ILL := true, CAUSE := 3 }.rst = false ∧
      step { ready true false 9 [0] [] with ILL := true, CAUSE := 3 } =
        .next (after { ready true false 9 [0] [] with ILL := true, CAUSE := 3 }) ∧
      { ready true false 9 [0] [] with ILL := true, CAUSE := 3 }.ILL = true ∧
      { ready true false 9 [0] [] with ILL := true, CAUSE := 3 }.TV = true ∧
      { ready true false 9 [0] [] with ILL := true, CAUSE := 3 }.CAPV = true) :=
  ⟨⟨rfl, rfl⟩, rfl, rfl, rfl, rfl, rfl⟩

theorem witness_ResetAbandonsFrame :
    { ready true false 9 [0x1100000000000003, 0] [1, 2] with rst := true }.rst = true ∧
    { ready true false 9 [0x1100000000000003, 0] [1, 2] with rst := true }.READY = true ∧
    opcField 0x1100000000000003 = 0x11 ∧
    { ready true false 9 [0x1100000000000003, 0] [1, 2] with rst := true }.dataPort.length <
      (lenField 0x1100000000000003).toNat ∧
    { ready true false 9 [0x1700000000000000] [1, 2] with rst := true }.rst = true ∧
    { ready true false 9 [0x1700000000000000] [1, 2] with rst := true }.READY = true ∧
    { ready true false 9 [0x1700000000000000] [1, 2] with rst := true }.cmdPort = [0x1700000000000000] ∧
    opcField 0x1700000000000000 = 0x17 := ⟨rfl, rfl, by decide, by decide, rfl, rfl, rfl, by decide⟩

/-- Clause 2 with ILL rising (each of the three causes is reached in `test_fault_opc`, `test_fault_field` and
`test_setcap_production`), and clause 3 in a reachable state. -/
theorem witness_StatusFields :
    ((ready false false 0 [0x0400000000000000] []).rst = false ∧
      step (ready false false 0 [0x0400000000000000] []) =
        .next (after (ready false false 0 [0x0400000000000000] [])) ∧
      (ready false false 0 [0x0400000000000000] []).ILL = false ∧
      (after (ready false false 0 [0x0400000000000000] [])).ILL = true) ∧
    (Reachable launch ∧ launch.ILL = false) :=
  ⟨⟨rfl, rfl, rfl, by decide⟩, launch_reachable, rfl⟩

/-- The three causes; the second with its payload exactly there. -/
theorem witness_IllegalFrameFaults :
    ((ready false false 0 [0x0400000000000000] []).Accepting ∧ opcField 0x0400000000000000 ∉ assignedOpcodes ∧
      (frameExtent 0x0400000000000000).words ≤ 1) ∧
    ((ready false false 0 [0x1101000000000002] [1, 2]).Accepting ∧ opcField 0x1101000000000002 ∈ assignedOpcodes ∧
      (∀ r ∈ opcodeRows, r.selects 0x1101000000000002 = false) ∧ (frameExtent 0x1101000000000002).bytes ≤ 2) ∧
    ((ready false false 0 [0x0301000000000000] []).Accepting ∧ opcField 0x0301000000000000 = 0x03 ∧
      argHighField 0x0301000000000000 = 0 ∧ lenField 0x0301000000000000 = 0 ∧
      (ready false false 0 [0x0301000000000000] []).TESTEN = false) :=
  ⟨⟨⟨rfl, rfl⟩, by decide⟩, ⟨⟨rfl, rfl⟩, by decide⟩, ⟨rfl, rfl⟩, by decide⟩

/-- The legal command that raises, and the four clauses on words. -/
theorem witness_FaultCausesAndPriority :
    (exec (.setcap true) (ready false false 0 [0x0301000000000000] []) =
        .next (after (ready false false 0 [0x0301000000000000] [])) ∧
      (ready false false 0 [0x0301000000000000] []).ILL = false ∧
      (after (ready false false 0 [0x0301000000000000] [])).ILL = true) ∧
    (opcField 0x0302000000000000 = 0x03 ∧ argHighField 0x0302000000000000 ≠ 0 ∧
      step (ready false false 0 [0x0302000000000000] []) =
        .next (after (ready false false 0 [0x0302000000000000] []))) ∧
    (opcField 0xFF00000000000005 ∉ assignedOpcodes ∧
      step (ready false false 0 [0xFF00000000000005] []) =
        .next (after (ready false false 0 [0xFF00000000000005] []))) ∧
    ({ ready false false 0 [0xFF00000000000005] [] with ILL := true, CAUSE := 3 }.ILL = true ∧
      step { ready false false 0 [0xFF00000000000005] [] with ILL := true, CAUSE := 3 } =
        .next (after { ready false false 0 [0xFF00000000000005] [] with ILL := true, CAUSE := 3 })) :=
  ⟨⟨rfl, rfl, by decide⟩, ⟨by decide, by decide, rfl⟩, ⟨by decide, rfl⟩, rfl, rfl⟩

theorem witness_ModesDifferOnlyInSetcap :
    step (ready true true 0 [0] []) = .next (after (ready true true 0 [0] [])) ∧ (∀ v, Instr.nop ≠ .setcap v) ∧
    (∀ v, Instr.update 5 ≠ .setcap v) ∧ (ready true true 0 [0] []).TESTEN = true ∧
    (ready true false 0 [0] []).TESTEN = false := ⟨rfl, nofun, nofun, rfl, rfl⟩

/-- The hypotheses of `FieldFault`, for every command that states it, once with ARG and once with LEN. -/
theorem witness_FieldFault (opc : BitVec 8)
    (h : opc ∈ [(0x00 : BitVec 8), 0x01, 0x02, 0x10, 0x12, 0x14, 0x15, 0x16, 0x17]) :
    (ready true false 0 [commandWord opc 1 0, 7] []).Accepting ∧ opcField (commandWord opc 1 0) = opc ∧
    argField (commandWord opc 1 0) ≠ 0 ∧ opcField (commandWord opc 0 1) = opc ∧ lenField (commandWord opc 0 1) ≠ 0 ∧
    2 ≤ (ready true false 0 [commandWord opc 1 0, 7] []).cmdPort.length := by
  refine ⟨⟨rfl, rfl⟩, ?_⟩
  revert opc
  decide

/-- The hypotheses of `PayloadFieldFault`, with the payload exactly there. -/
theorem witness_PayloadFieldFault :
    (ready true false 0 [0x1101000000000003] [1, 2, 3]).Accepting ∧ opcField 0x1101000000000003 = 0x11 ∧
    argField 0x1101000000000003 ≠ 0 ∧ opcField 0x1380000000000003 = 0x13 ∧ argField 0x1380000000000003 ≠ 0 ∧
    (lenField 0x1101000000000003).toNat ≤ (ready true false 0 [0x1101000000000003] [1, 2, 3]).dataPort.length :=
  ⟨⟨rfl, rfl⟩, by decide⟩

/-- The hypotheses of `WordsRun`, for any words. -/
theorem witness_WordsRun (ws : List Word) :
    (ready true false 0 (ws ++ [0]) []).Accepting ∧ (ready true false 0 (ws ++ [0]) []).cmdPort = ws ++ [0] :=
  ⟨⟨rfl, rfl⟩, rfl⟩

theorem witness_TgenBuildsTableOnce : State.reset.TV = false ∧ State.reset.T.wf = true ∧ launch.TV = true :=
  ⟨rfl, rfl, rfl⟩

theorem witness_TableImmutable : (launch.rst = false ∧ launch.TV = true ∧ step launch = .next launch) ∧
    Reachable launch := ⟨⟨rfl, rfl, step_of_reject (s := launch) (e := .incomplete) rfl rfl rfl⟩, launch_reachable⟩

theorem witness_RefUpdIsPolynomialRemainder : (ramp 3).length = nine.length - 6 ∧ (ramp 8).length = 8 := by decide

theorem witness_SliceBy8IsBitExact : 8 ≤ (ramp 8).length ∧ (ramp 7).length < 8 := by decide

theorem witness_ClmulIsPolynomialProduct : 0 < 128 ∧ 127 < 128 := by decide

theorem witness_LaneHoldsSixteenBytes : 8 + 8 ≤ (ramp 16).length ∧ 0 + 16 ≤ (ramp 16).length := by decide

/-- Clause 1 at its lower boundary t = 1: khi = POLY_R is x^64 mod P, klo is the word of 1. -/
theorem witness_FoldStepShifts : phi POLY_R = Polynomial.X ^ (1 + 63) %ₘ polyP ∧
    phi 0x8000000000000000 = Polynomial.X ^ (1 - 1) %ₘ polyP := by
  constructor
  · rw [phi_eq_mod_iff]
    exact red_X_pow.symm
  · rw [phi_eq_mod_iff, pow_zero]
    refine congrArg red ?_
    ext n
    have hb : ∀ i < 64, (0x8000000000000000 : Word).getLsbD i = decide (i = 63) := by decide
    rw [coeff_phi, Polynomial.coeff_one]
    by_cases h : n < 64
    · rw [if_pos h, hb _ (by omega)]
      by_cases h0 : n = 0
      · subst h0
        rfl
      · simp [h0, show ¬ 63 - n = 63 by omega, bit2]
    · simp [h, show ¬ n = 0 by omega]

theorem witness_ReduceIsPolynomialRemainder : ∃ A B U V : Lane, ∃ BH Q : Word,
    B = clmul64 (A.extractLsb' 0 64) K127 ^^^ (A.extractLsb' 64 64).setWidth 128 ∧ BH = B.extractLsb' 0 64 ∧
    U = clmul64 BH MU_R ∧ Q = BH ^^^ (U.extractLsb' 0 64 <<< 1) ∧ V = clmul64 Q POLY_R :=
  ⟨0x0F0E0D0C0B0A0908F8F9FAFBFCFDFEFF, _, _, _, _, _, rfl, rfl, rfl, rfl, rfl⟩

/-- Below one block, exactly one block, three blocks with a tail, and a lane that exists. -/
theorem witness_FolderFollowsItsSteps : (ramp 15).length < 16 * NLanes.one.count ∧
    1 = (ramp 32).length / (16 * NLanes.two.count) ∧ 3 = (ramp 53).length / (16 * NLanes.one.count) ∧
    (foldBlocks .two ones (ramp 64) 2)[1]? = some 0x3C91985F96720BA26017697CDBE5EB90 := by decide +kernel

theorem witness_DispatchIsPathIndependent : launch.Inv ∧ launch.TV = true ∧ (ready true false 0 [] []).CAP = true ∧
    (ready false false 0 [] []).CAP = false := ⟨launch_inv, rfl, rfl, rfl⟩

theorem witness_ProbeLatchesOracleOnce : State.reset.CAPV = false ∧ launch.CAPV = true := ⟨rfl, rfl⟩

/-- Test mode, production mode, and a word with a field fault. -/
theorem witness_SetcapWritesCapInTestMode : (ready true true 0 [] []).TESTEN = true ∧
    (ready true false 0 [] []).TESTEN = false ∧ (ready true false 0 [0x0302000000000000] []).Accepting ∧
    opcField 0x0302000000000000 = 0x03 ∧ argHighField 0x0302000000000000 ≠ 0 ∧
    opcField 0x0300000000000001 = 0x03 ∧ lenField 0x0300000000000001 ≠ 0 :=
  ⟨rfl, rfl, ⟨rfl, rfl⟩, by decide⟩

theorem witness_CapIsStable :
    ((ready true false 0 [0] []).rst = false ∧ (ready true false 0 [0] []).CAPV = true ∧
      (ready true false 0 [0] []).TESTEN = false ∧
      step (ready true false 0 [0] []) = .next (after (ready true false 0 [0] []))) ∧
    ((ready true true 0 [0x0300000000000000] []).rst = false ∧
      (ready true true 0 [0x0300000000000000] []).CAPV = true ∧
      step (ready true true 0 [0x0300000000000000] []) =
        .next (after (ready true true 0 [0x0300000000000000] [])) ∧
      (after (ready true true 0 [0x0300000000000000] [])).CAP ≠ (ready true true 0 [0x0300000000000000] []).CAP) ∧
    ({ State.reset with TV := true }.rst = false ∧ { State.reset with TV := true }.CAPV = false ∧
      step { State.reset with TV := true } = .next { State.reset.probeBody with TV := true } ∧
      { State.reset.probeBody with TV := true }.CAPV = true) ∧
    (launch.Inv ∧ launch.TV = true ∧ Instr.sum ≠ .probe ∧ ∀ v, Instr.sum ≠ .setcap v) :=
  ⟨⟨rfl, rfl, rfl, rfl⟩, ⟨rfl, rfl, rfl, by decide⟩, ⟨rfl, rfl, rfl, rfl⟩, launch_inv, rfl, nofun, nofun⟩

theorem witness_CapInIgnoredAfterProbe : (ready true false 0 [0x0200000000000000] []).rst = false ∧
    (ready true false 0 [0x0200000000000000] []).CAPV = true ∧
    step (ready true false 0 [0x0200000000000000] []) =
      .next (after (ready true false 0 [0x0200000000000000] [])) := ⟨rfl, rfl, rfl⟩

/-- LEN bytes exactly there, none asked for, CAP = 0, and the state over the generated table. -/
theorem witness_NopReturnsStatus : (ready true false 0 [] []).READY = true ∧ (ready true false 0 [] []).TV = true ∧
    (ready true false 0 [] []).CAPV = true ∧ (ready true false 0 [] []).CAP = true ∧
    (ready true false 0 [] []).TESTEN = false ∧ (ready true false 0 [] []).ILL = false ∧
    (ready true false 0 [] []).CAUSE = 0 := ⟨rfl, rfl, rfl, rfl, rfl, rfl, rfl⟩

theorem witness_ResetLoadsInit :
    exec .reset (ready true false 9 [0x1000000000000000] []) =
      .next (after (ready true false 9 [0x1000000000000000] [])) := rfl

theorem witness_UpdateAbsorbsPayload : 4 ≤ (ready false false 0 [] [1, 2, 3, 4]).dataPort.length ∧
    0 ≤ launch.dataPort.length ∧ (ready false false 0 [] [1, 2, 3, 4]).CAP = false ∧
    0 < 16 * Config.nlanes.count ∧ launch.Inv ∧ launch.TV = true :=
  ⟨by decide, Nat.zero_le _, rfl, by cases Config.nlanes <;> decide, launch_inv, rfl⟩

theorem witness_ChecksumLeavesStream : 4 ≤ (ready false false 0 [] [1, 2, 3, 4]).dataPort.length ∧
    (ready false false 0 [] [1, 2, 3, 4]).CAP = false ∧ launch.Inv ∧ launch.TV = true :=
  ⟨by decide, rfl, launch_inv, rfl⟩

theorem witness_SessionRestoreAndUpdate : Reachable launch ∧ launch.Idle ∧ nine.length < 2 ^ 48 :=
  ⟨launch_reachable, launch_idle, by decide⟩

/-- Two chunks with a SETCAP between them (P3), and the empty partition. -/
theorem witness_StreamingEquivalence : launch.Inv ∧ launch.Idle ∧
    (∀ c ∈ [(⟨none, ramp 16⟩ : Chunk), ⟨some false, ramp 24⟩], c.bytes.length < 2 ^ 48) ∧
    ∀ c ∈ ([] : List Chunk), c.bytes.length < 2 ^ 48 := ⟨launch_inv, launch_idle, by decide, nofun⟩

theorem witness_SumIsIdempotent : exec .sum (ready true false 9 [0x1200000000000000] []) =
    .next (after (ready true false 9 [0x1200000000000000] [])) ∧ launch.Idle := ⟨rfl, launch_idle⟩

theorem witness_ResetForgetsTheStream : Reachable launch ∧ launch.Idle ∧ (ramp 33).length < 2 ^ 48 ∧
    ([0xFF] : List Byte).length < 2 ^ 48 := ⟨launch_reachable, launch_idle, by decide, by decide⟩

/-- NOP meets every antecedent together. -/
theorem witness_CommandFrames : exec .nop (ready true false 9 [0] []) = .next (after (ready true false 9 [0] [])) ∧
    Instr.nop ≠ .reset ∧ Instr.nop ≠ .tgen ∧ Instr.nop ≠ .probe ∧ (∀ v, Instr.nop ≠ .setcap v) ∧
    (∀ len, Instr.nop ≠ .update len) ∧ (∀ len, Instr.nop ≠ .checksum len) ∧ ∀ w, Instr.nop ≠ .wrstate w :=
  ⟨rfl, nofun, nofun, nofun, nofun, nofun, nofun, nofun⟩

theorem witness_StepKeepsInvariant : launch.Inv ∧ step launch = .next launch :=
  ⟨launch_inv, step_of_reject (s := launch) (e := .incomplete) rfl rfl rfl⟩

/-- A reachable ready state; a state since a PROBE that sampled 1 in production mode; a state since a reset that
found the strap at 1. -/
theorem witness_ReachableStatesMeetR32 : (Reachable launch ∧ launch.READY = true ∧ launch.ILL = false) ∧
    (SinceProbe true (after { held with TV := true }) ∧ (after { held with TV := true }).TESTEN = false) ∧
    SinceReset true (State.hardwareReset { held with rst := true, testen := true }) ∧
    SinceReset State.reset.testen State.reset :=
  ⟨⟨launch_reachable, rfl, rfl⟩, ⟨.probe (s := { held with TV := true }) rfl rfl rfl rfl rfl rfl, rfl⟩,
    .reset (s := { held with rst := true, testen := true }) rfl rfl rfl, .launch rfl⟩

theorem witness_AccumulatorsAreScratch :
    step (ready true false 9 [0x1600000000000000] []) = .next (after (ready true false 9 [0x1600000000000000] [])) :=
  rfl

end Sys2Proof.Tests
end

/-! What a step without a hardware reset can do to a state, said once: the effect of a command before its frame
completes, the shapes of the next state, the invariant over steps and runs, and what such a step keeps. -/

namespace Sys2Proof.Machine

/-! ### The effect of a command -/

/-- `s.CommandEffect u`: a command run in `s` may leave `u` just before its frame completes. -/
inductive State.CommandEffect (s : State) : State → Prop where
  | nothing : s.CommandEffect s
  | tgen : s.CommandEffect s.tgenBody
  | probe : s.CommandEffect s.probeBody
  | setcap (hm : s.TESTEN = true) (v : Bool) : s.CommandEffect { s with CAP := v }
  | writeS (v : Word) : s.CommandEffect { s with S := v }
  | absorb (len : Nat) (v : Word) : s.CommandEffect (State.scratchAcc len { s with S := v })

/-- A command waits, or raises Ill(3), or completes its frame after its effect. -/
theorem exec_effect {i : Instr} {s t : State} (h : exec i s = .next t) :
    t = s ∨ t = s.raiseIll .priv .word ∨
    ∃ u, s.CommandEffect u ∧ ∃ val dout, t = u.complete i.extent val dout := by
  obtain rfl | rfl | ⟨u, val, dout, rfl, hu⟩ := exec_cases h
  · exact .inl rfl
  · exact .inr (.inl rfl)
  · refine .inr (.inr ⟨u, ?_, val, dout, rfl⟩)
    obtain rfl | rfl | rfl | ⟨hm, v, rfl⟩ | ⟨v, rfl⟩ | ⟨len, v, rfl⟩ := hu
    · exact .nothing
    · exact .tgen
    · exact .probe
    · exact .setcap hm v
    · exact .writeS v
    · exact .absorb len v

/-- A step without `rst` holds the state, or is a step of boot, or takes the exception, or completes the frame of
a command after its effect. -/
theorem step_effect {s t : State} (hr : s.rst = false) (h : step s = .next t) :
    t = s ∨ t = s.bootStep ∧ s.READY = false ∨ (∃ c e, t = s.raiseIll c e) ∨
    ∃ u, s.CommandEffect u ∧ ∃ e val dout, t = u.complete e val dout := by
  obtain ⟨hr', -⟩ | ⟨-, hb, rfl⟩ | ⟨-, -, i, -, hi⟩ | ⟨-, -, e, -, rfl⟩ := step_cases h
  · exact absurd hr' (by simp [hr])
  · exact .inr (.inl ⟨rfl, hb⟩)
  · obtain rfl | rfl | ⟨u, hu, val, dout, rfl⟩ := exec_effect hi
    · exact .inl rfl
    · exact .inr (.inr (.inl ⟨_, _, rfl⟩))
    · exact .inr (.inr (.inr ⟨u, hu, _, _, _, rfl⟩))
  · obtain ⟨he, -⟩ | ⟨c, -, -, he⟩ := rejectFrame_cases e s
    · exact .inl he
    · exact .inr (.inr (.inl ⟨_, _, he⟩))

/-! ### The invariant (10_state.md R32) over effects, steps and runs -/

theorem inv_bootStep {s : State} (h : s.Inv) : s.bootStep.Inv := by
  obtain ⟨-, he⟩ | ⟨-, -, he⟩ | ⟨hT, hC, he⟩ := bootStep_cases s <;> rw [he]
  · exact inv_tgenBody h
  · exact inv_probeBody h
  · exact ⟨h.canonical, h.inRange, h.built, fun _ => ⟨hT, hC⟩, h.noCause, h.cause, h.lanes⟩

theorem inv_writeS {s : State} (h : s.Inv) (v : Word) : State.Inv { s with S := v } :=
  ⟨h.canonical, h.inRange, h.built, h.booted, h.noCause, h.cause, h.lanes⟩

theorem inv_effect {s u : State} (h : s.Inv) (hu : s.CommandEffect u) : u.Inv := by
  cases hu with
  | nothing => exact h
  | tgen => exact inv_tgenBody h
  | probe => exact inv_probeBody h
  | setcap _ v => exact ⟨h.canonical, h.inRange, h.built, h.booted, h.noCause, h.cause, h.lanes⟩
  | writeS v => exact inv_writeS h v
  | absorb len v => exact inv_scratchAcc (inv_writeS h v) len

theorem inv_step {s t : State} (h : s.Inv) (hs : step s = .next t) : t.Inv := by
  cases hr : s.rst with
  | true =>
    rw [step_of_rst hr] at hs
    cases hs
    exact inv_hardwareReset s
  | false =>
    obtain rfl | ⟨rfl, -⟩ | ⟨c, e, rfl⟩ | ⟨u, hu, e, val, dout, rfl⟩ := step_effect hr hs
    · exact h
    · exact inv_bootStep h
    · exact inv_raiseIll h c e
    · exact inv_complete (inv_effect h hu) e val dout

/-- The reset state is what a hardware reset makes of itself. -/
theorem hardwareReset_reset : State.reset.hardwareReset = State.reset := rfl

theorem inv_reset : State.reset.Inv := hardwareReset_reset ▸ inv_hardwareReset State.reset

theorem Reachable.inv {s : State} (h : Reachable s) : s.Inv := by
  induction h with
  | reset => exact inv_reset
  | step _ hs ih => exact inv_step ih hs
  | host m _ ih => exact inv_host ih m

/-- Settles O56: each shape of a step keeps the invariant. -/
theorem stepKeepsInvariant : Obligations.StepKeepsInvariant := fun _ _ => inv_step

/-- Settles O55: the reset state is one that a hardware reset leaves. -/
theorem resetMeetsInvariant : Obligations.ResetMeetsInvariant := inv_reset

/-! ### Responses (30_encoding.md R67) -/

/-- The effect of a command itself counts no frame and answers nothing: completing the frame does. -/
theorem effect_responds_nothing {s u : State} (hu : s.CommandEffect u) :
    u.cidx = s.cidx ∧ u.respPort = s.respPort := by
  cases hu <;> exact ⟨rfl, rfl⟩

theorem bootStep_responds_nothing (s : State) :
    s.bootStep.cidx = s.cidx ∧ s.bootStep.respPort = s.respPort := by
  obtain ⟨-, he⟩ | ⟨-, -, he⟩ | ⟨-, -, he⟩ := bootStep_cases s <;> rw [he] <;> exact ⟨rfl, rfl⟩

/-- Settles O9: holding and boot answer nothing, and the exception and a completed command answer once. -/
theorem oneResponsePerFrame : Obligations.OneResponsePerFrame := by
  intro s t hr h
  obtain rfl | ⟨rfl, -⟩ | ⟨c, e, rfl⟩ | ⟨u, hu, e, val, dout, rfl⟩ := step_effect hr h
  · exact .inl ⟨rfl, rfl⟩
  · exact .inl (bootStep_responds_nothing s)
  · exact .inr ⟨rfl, _, rfl, rfl⟩
  · obtain ⟨hc, hp⟩ := effect_responds_nothing hu
    exact .inr ⟨by simp [hc], _, by rw [State.complete_respPort, hp], rfl⟩

/-! ### What a step without a hardware reset keeps -/

/-- What every step without a hardware reset keeps of `s` in `t`. -/
structure State.Kept (s t : State) : Prop where
  /-- The strap is latched by a hardware reset only (10_state.md R26). -/
  strap : t.TESTEN = s.TESTEN
  /-- Boot is completed once (R27). -/
  ready : s.READY = true → t.READY = true
  /-- The table is built once (R23, R24). -/
  table : s.TV = true → t.TV = true ∧ t.T = s.T
  /-- The capability is latched once, and in production mode then stays (R25). -/
  cap : s.CAPV = true → t.CAPV = true ∧ (s.TESTEN = false → t.CAP = s.CAP)
  /-- ILL is sticky and CAUSE keeps the first cause (R27). -/
  ill : s.ILL = true → t.ILL = true ∧ t.CAUSE = s.CAUSE
  /-- A first fault leaves the code of a cause (60_exceptions.md R150). -/
  fault : s.ILL = false → t.ILL = true → ∃ c, t.CAUSE = illCode c

/-- A state with the fault record of `s` meets the last two clauses. -/
theorem State.Kept.of_sameFault {s t : State} (hI : t.ILL = s.ILL) (hC : t.CAUSE = s.CAUSE)
    (strap : t.TESTEN = s.TESTEN) (ready : s.READY = true → t.READY = true)
    (table : s.TV = true → t.TV = true ∧ t.T = s.T)
    (cap : s.CAPV = true → t.CAPV = true ∧ (s.TESTEN = false → t.CAP = s.CAP)) : s.Kept t :=
  ⟨strap, ready, table, cap, fun h => ⟨hI.trans h, hC⟩, fun h h' => absurd (hI ▸ h') (by simp [h])⟩

theorem kept_tgenBody (s : State) : s.Kept s.tgenBody :=
  .of_sameFault rfl rfl rfl id (fun h => ⟨rfl, by simp [h]⟩) fun h => ⟨h, fun _ => rfl⟩

theorem kept_probeBody (s : State) : s.Kept s.probeBody :=
  .of_sameFault rfl rfl rfl id (fun h => ⟨h, rfl⟩) fun h => ⟨rfl, fun _ => by simp [h]⟩

theorem kept_bootStep (s : State) : s.Kept s.bootStep := by
  obtain ⟨-, he⟩ | ⟨-, -, he⟩ | ⟨-, -, he⟩ := bootStep_cases s <;> rw [he]
  · exact kept_tgenBody s
  · exact kept_probeBody s
  · exact .of_sameFault rfl rfl rfl (fun _ => rfl) (fun h => ⟨h, rfl⟩) fun h => ⟨h, fun _ => rfl⟩

theorem kept_raiseIll (s : State) (c : IllCause) (e : Extent) : s.Kept (s.raiseIll c e) :=
  ⟨rfl, id, fun h => ⟨h, rfl⟩, fun h => ⟨h, fun _ => rfl⟩, fun h => ⟨rfl, by simp [h]⟩,
    fun h _ => ⟨c, by simp [h]⟩⟩

theorem kept_effect {s u : State} (hu : s.CommandEffect u) : s.Kept u := by
  cases hu with
  | tgen => exact kept_tgenBody s
  | probe => exact kept_probeBody s
  | setcap hm v =>
    exact .of_sameFault rfl rfl rfl id (fun h => ⟨h, rfl⟩) fun h => ⟨h, fun hp => absurd hm (by simp [hp])⟩
  | nothing | writeS | absorb =>
    exact .of_sameFault rfl rfl rfl id (fun h => ⟨h, rfl⟩) fun h => ⟨h, fun _ => rfl⟩

/-- Completing a frame writes none of the registers that are kept. -/
theorem State.Kept.complete {s u : State} (h : s.Kept u) (e : Extent) (val : Word) (dout : List Byte) :
    s.Kept (u.complete e val dout) :=
  ⟨h.strap, h.ready, h.table, h.cap, h.ill, h.fault⟩

theorem kept_step {s t : State} (hr : s.rst = false) (h : step s = .next t) : s.Kept t := by
  obtain rfl | ⟨rfl, -⟩ | ⟨c, e, rfl⟩ | ⟨u, hu, e, val, dout, rfl⟩ := step_effect hr h
  · exact kept_effect .nothing
  · exact kept_bootStep s
  · exact kept_raiseIll s c e
  · exact (kept_effect hu).complete e val dout

/-- Settles O25: `table` of what a step keeps, and the invariant of reachable states. -/
theorem tableImmutable : Obligations.TableImmutable :=
  ⟨fun _ _ hr hT h => ((kept_step hr h).table hT).2, fun _ h => h.inv.built⟩

/-! ### STAT (10_state.md R27) -/

/-- A bit of STAT is one of the fields that R27 puts side by side, read at the sum of their widths, where the
library's lemmas on `++` apply. -/
theorem stat_getLsbD (s : State) (i : Nat) : s.stat.getLsbD i =
    (s.CAUSE ++ BitVec.ofBool s.ILL ++ BitVec.ofBool s.TESTEN ++ BitVec.ofBool s.CAP ++
      BitVec.ofBool s.CAPV ++ BitVec.ofBool s.TV ++ BitVec.ofBool s.READY).getLsbD i := rfl

theorem stat_flags (s : State) : s.stat.getLsbD 0 = s.READY ∧ s.stat.getLsbD 1 = s.TV ∧
    s.stat.getLsbD 2 = s.CAPV ∧ s.stat.getLsbD 3 = s.CAP ∧ s.stat.getLsbD 4 = s.TESTEN ∧
    s.stat.getLsbD 5 = s.ILL := by
  simp only [stat_getLsbD, BitVec.getLsbD_append]
  simp

theorem stat_cause (s : State) : s.stat.extractLsb' 6 2 = s.CAUSE := by
  apply BitVec.eq_of_getLsbD_eq
  intro i hi
  simp only [BitVec.getLsbD_extractLsb', stat_getLsbD, BitVec.getLsbD_append]
  simp [hi]

theorem illCode_values (c : IllCause) : illCode c = 1 ∨ illCode c = 2 ∨ illCode c = 3 := by
  cases c <;> decide

/-- Settles O16: the layout bit by bit, what a step keeps, and the invariant of reachable states. -/
theorem statusFields : Obligations.StatusFields := by
  refine ⟨fun s => ?_, fun s t hr h => ?_, fun s h => h.inv.noCause⟩
  · obtain ⟨h0, h1, h2, h3, h4, h5⟩ := stat_flags s
    exact ⟨h0, h1, h2, h3, h4, h5, stat_cause s⟩
  · have hk := kept_step hr h
    refine ⟨hk.ill, fun h0 h1 => ?_, hk.ready⟩
    obtain ⟨c, hc⟩ := hk.fault h0 h1
    exact hc ▸ illCode_values c

/-! ### The sampled levels (10_state.md R25, R26, R32) -/

/-- A host move writes none of the latched levels. -/
theorem host_levels (m : HostMove) (s : State) :
    (m.apply s).TESTEN = s.TESTEN ∧ (m.apply s).CAP = s.CAP ∧ (m.apply s).CAPV = s.CAPV := by
  cases m <;> exact ⟨rfl, rfl, rfl⟩

/-- The step of boot that raises CAPV samples the pin. -/
theorem bootStep_samples {s : State} (hC : s.CAPV = false) (h : s.bootStep.CAPV = true) :
    s.bootStep.CAP = s.capIn := by
  obtain ⟨-, he⟩ | ⟨-, -, he⟩ | ⟨-, hC', -⟩ := bootStep_cases s
  · exact absurd h (by simp [he, hC])
  · simp [he, hC]
  · exact absurd hC' (by simp [hC])

/-- Since the PROBE of boot, CAPV = 1, and in production mode CAP is the level sampled. -/
theorem SinceProbe.latched {sampled : Bool} {s : State} (h : SinceProbe sampled s) :
    s.CAPV = true ∧ (s.TESTEN = false → s.CAP = sampled) := by
  induction h with
  | probe hr hb hC hp hs ht =>
    rw [step_of_boot hr hb] at hs
    cases hs
    exact ⟨ht, fun _ => (bootStep_samples hC ht).trans hp⟩
  | step _ hr hs ih =>
    obtain ⟨hC, hP⟩ := ih
    have hk := kept_step hr hs
    obtain ⟨hC', hP'⟩ := hk.cap hC
    rw [hk.strap]
    exact ⟨hC', fun hp => (hP' hp).trans (hP hp)⟩
  | host m _ ih =>
    obtain ⟨hT, hP, hC⟩ := host_levels m _
    rwa [hT, hP, hC]

/-- Since the hardware reset, TESTEN is the level of the strap that it found. -/
theorem SinceReset.strap_latched {strap : Bool} {s : State} (h : SinceReset strap s) : s.TESTEN = strap := by
  induction h with
  | launch h => exact h
  | reset hr hp hs =>
    rw [step_of_rst hr] at hs
    cases hs
    exact hp
  | step _ hr hs ih => exact (kept_step hr hs).strap.trans ih
  | host m s ih => exact (host_levels m _).1.trans ih

/-- Settles O57: the invariant of reachable states, and the sampled levels along the steps since. -/
theorem reachableStatesMeetR32 : Obligations.ReachableStatesMeetR32 :=
  ⟨fun _ h => ⟨h.inv.booted, h.inv.built, h.inv.noCause⟩, fun _ _ h => h.latched.2,
    fun _ _ h => h.strap_latched⟩

/-! ### The launch state (10_state.md R33) -/

/-- Settles O11: the reset column holds by definition, and three steps are the whole of boot. -/
theorem resetAndLaunchValues : Obligations.ResetAndLaunchValues := by
  refine ⟨⟨rfl, rfl, rfl, rfl, rfl, rfl, rfl, rfl, rfl⟩,
    State.reset.bootAll, run_boot rfl rfl rfl rfl, rfl, ?_, rfl, rfl, rfl, rfl, rfl, rfl, rfl, rfl⟩
  exact (inv_bootAll inv_reset).built rfl

/-! ### Decoding a command's own words (30_encoding.md R64) -/

theorem decodeF0_commandWord (o : BitVec 8) (i : Instr) : decodeF0 (commandWord o 0 0) i = .ok i := by
  simp [decodeF0, argField_commandWord, lenField_commandWord]

theorem decodeFA_commandWord (o : BitVec 8) (v : Bool) :
    decodeFA (commandWord o (if v then 1 else 0) 0) = .ok (.setcap v) := by
  cases v <;> simp [decodeFA, argHighField_commandWord, lenField_commandWord, vField_commandWord]

theorem decodeFL_commandWord (o : BitVec 8) {len : Nat} (h : len < 2 ^ 48) (mk : Nat → Instr) :
    decodeFL (commandWord o 0 len) mk = .ok (mk len) := by
  rw [decodeFL, if_pos (argField_commandWord o 0 len), lenField_commandWord, BitVec.toNat_ofNat,
    Nat.mod_eq_of_lt h]

theorem decodeFW_commandWord (o : BitVec 8) (opw : Word) (rest : List Word) :
    decodeFW (commandWord o 0 0) (opw :: rest) = .ok (.wrstate opw) := by
  simp [decodeFW, argField_commandWord, lenField_commandWord]

/-- The decoder reads a well-formed command from its own words, whatever follows them. -/
theorem decode_encode_append {i : Instr} (h : i.wellFormed = true) (rest : List Word) :
    decode (encode i ++ rest) = .ok i := by
  cases i with
  | nop | tgen | probe | reset | sum | size | blksize | rdstate => exact decodeF0_commandWord _ _
  | setcap v =>
    rw [encode, List.singleton_append, decode_cons, opcField_commandWord]
    exact decodeFA_commandWord _ v
  | update len =>
    rw [encode, List.singleton_append, decode_cons, opcField_commandWord]
    exact decodeFL_commandWord _ ((wellFormed_update len).mp h) .update
  | checksum len =>
    rw [encode, List.singleton_append, decode_cons, opcField_commandWord]
    exact decodeFL_commandWord _ ((wellFormed_checksum len).mp h) .checksum
  | wrstate opw =>
    rw [encode, List.cons_append, decode_cons, opcField_commandWord]
    exact decodeFW_commandWord _ opw rest

/-- Settles O7: the command's own words decode to it, and a ready engine runs what it decodes. -/
theorem stepRunsDecodedCommand : Obligations.StepRunsDecodedCommand := by
  intro s i rest ⟨hr, hb⟩ hw hc
  refine step_of_decode hr hb ?_
  rw [hc, decode_encode_append hw]

/-! ### Frames of the commands (10_state.md R20) -/

/-- A frame without payload leaves the data port as it is (30_encoding.md R62). -/
@[simp] theorem extent_word_bytes : Extent.word.bytes = 0 := rfl
@[simp] theorem extent_operand_bytes : Extent.operand.bytes = 0 := rfl

/-- Settles O54: each command's next state is an equation, whose fields `simp` reads off. -/
theorem commandFrames : Obligations.CommandFrames := by
  intro i s t h
  cases i with
  | nop | sum | size | blksize | rdstate | tgen | probe | reset | wrstate => cases h; simp
  | setcap v =>
    rw [exec_setcap] at h
    cases h
    split <;> simp
  | update len =>
    rw [exec_update] at h
    cases h
    split <;> simp [State.updateBody]
  | checksum len =>
    rw [exec_checksum] at h
    cases h
    split <;> simp [State.checksumBody]

/-! ### The accumulators are scratch (10_state.md R28) -/

/-- `s` with other accumulators. -/
def State.withAcc (acc : List Lane) (s : State) : State := { s with ACC := acc }

/-- A hardware reset rewrites the accumulators, and reads nothing of them. -/
theorem hardwareReset_withAcc (acc : List Lane) (s : State) :
    (s.withAcc acc).hardwareReset = s.hardwareReset := rfl

theorem bootStep_withAcc (acc : List Lane) (s : State) :
    (s.withAcc acc).bootStep = s.bootStep.withAcc acc := by
  rw [State.bootStep, State.bootStep, apply_ite (State.withAcc acc), apply_ite (State.withAcc acc)]
  rfl

/-- Whether a frame is there in full does not depend on the accumulators. -/
theorem whenSupplied_withAcc {f : State → State} {acc : List Lane} {s : State} (e : Extent)
    (hf : f (s.withAcc acc) = (f s).withAcc acc) :
    (s.withAcc acc).whenSupplied e f = (s.whenSupplied e f).withAcc acc := by
  rw [State.whenSupplied, State.whenSupplied, apply_ite (State.withAcc acc), hf]
  rfl

theorem rejectFrame_withAcc (acc : List Lane) (e : DecodeError) (s : State) :
    (s.withAcc acc).rejectFrame e = (s.rejectFrame e).withAcc acc := by
  cases e with
  | incomplete => rfl
  | illOpc => exact whenSupplied_withAcc (f := State.raiseIll .opc s.headExtent) _ rfl
  | illField => exact whenSupplied_withAcc (f := State.raiseIll .field s.headExtent) _ rfl

/-- UPDATE reads nothing of the accumulators, and leaves in them a free value or what they held. -/
theorem updateBody_withAcc (acc : List Lane) (len : Nat) (s : State) :
    (s.withAcc acc).updateBody len = (s.updateBody len).withAcc ((s.withAcc acc).updateBody len).ACC := rfl

theorem checksumBody_withAcc (acc : List Lane) (len : Nat) (s : State) :
    (s.withAcc acc).checksumBody len = (s.checksumBody len).withAcc ((s.withAcc acc).checksumBody len).ACC := rfl

/-- A choice between two states that each agree with their counterpart up to the accumulators. -/
theorem ite_withAcc (p : Prop) [Decidable p] {a a' b b' : State} (ha : ∃ acc, a' = a.withAcc acc)
    (hb : ∃ acc, b' = b.withAcc acc) : ∃ acc, (if p then a' else b') = (if p then a else b).withAcc acc := by
  split
  · exact ha
  · exact hb

theorem exec_withAcc {i : Instr} {s t : State} (acc : List Lane) (h : exec i s = .next t) :
    ∃ acc', exec i (s.withAcc acc) = .next (t.withAcc acc') := by
  cases i with
  | nop | sum | size | blksize | rdstate | tgen | probe | reset | wrstate =>
    cases h
    exact ⟨acc, rfl⟩
  | setcap v =>
    cases h
    obtain ⟨acc', he⟩ := ite_withAcc (s.TESTEN = true)
      (a := State.complete .word (zextFlag v) [] { s with CAP := v }) (b := s.raiseIll .priv .word)
      ⟨acc, rfl⟩ ⟨acc, rfl⟩
    exact ⟨acc', congrArg _ he⟩
  | update len =>
    cases h
    obtain ⟨acc', he⟩ := ite_withAcc (len ≤ s.dataPort.length) (b := s)
      ⟨_, updateBody_withAcc acc len s⟩ ⟨acc, rfl⟩
    exact ⟨acc', congrArg _ he⟩
  | checksum len =>
    cases h
    obtain ⟨acc', he⟩ := ite_withAcc (len ≤ s.dataPort.length) (b := s)
      ⟨_, checksumBody_withAcc acc len s⟩ ⟨acc, rfl⟩
    exact ⟨acc', congrArg _ he⟩

/-- A step from other accumulators ends in the same state, but for the accumulators. -/
theorem step_withAcc {s t : State} (acc : List Lane) (h : step s = .next t) :
    ∃ acc', step (s.withAcc acc) = .next (t.withAcc acc') := by
  obtain ⟨hr, rfl⟩ | ⟨hr, hb, rfl⟩ | ⟨hr, hb, i, hd, hi⟩ | ⟨hr, hb, e, hd, rfl⟩ := step_cases h
  · exact ⟨s.hardwareReset.ACC, step_of_rst (s := s.withAcc acc) hr⟩
  · exact ⟨acc, by rw [step_of_boot (s := s.withAcc acc) hr hb, bootStep_withAcc]⟩
  · rw [step_of_decode (s := s.withAcc acc) hr hb hd]
    exact exec_withAcc acc hi
  · exact ⟨acc, by rw [step_of_reject (s := s.withAcc acc) hr hb hd, rejectFrame_withAcc]⟩

/-- Settles O58: `step_withAcc`, with the accumulators of the first run put back. -/
theorem accumulatorsAreScratch : Obligations.AccumulatorsAreScratch := by
  intro s t acc h
  obtain ⟨acc', h'⟩ := step_withAcc acc h
  exact ⟨t.withAcc acc', h', rfl⟩

end Sys2Proof.Machine

/-! Little-endian loads (20_memory.md R43) and the lane as a polynomial (42_clmul_folder.md R101): what the bits of
`le64` and `le128` say of their bytes, of the halves of a lane and of its polynomial. -/

namespace Sys2Proof.Machine

open Polynomial

/-! ### Little-endian loads (20_memory.md R43) -/

/-- A vector whose bit i is bit i % 8 of byte i / 8 of a sequence holds byte t at bits 8t+7:8t. -/
theorem extractLsb'_of_bytes {w : Nat} {A : BitVec w} {byte : Nat → Byte}
    (hA : ∀ i < w, A.getLsbD i = (byte (i / 8)).getLsbD (i % 8)) {t : Nat} (ht : 8 * t + 8 ≤ w) :
    A.extractLsb' (8 * t) 8 = byte t := by
  apply BitVec.eq_of_getLsbD_eq
  intro i hi
  rw [BitVec.getLsbD_extractLsb', hA _ (by omega), show (8 * t + i) / 8 = t by omega,
    show (8 * t + i) % 8 = i by omega]
  simp [hi]

theorem le64_byte (D : List Byte) (off : Nat) {t : Nat} (ht : t < 8) :
    (le64 D off).extractLsb' (8 * t) 8 = D.getD (off + t) 0 :=
  extractLsb'_of_bytes (byte := fun t => D.getD (off + t) 0) (fun _ => getLsbD_le64 D off) (by omega)

theorem le128_byte (D : List Byte) (off : Nat) {t : Nat} (ht : t < 16) :
    (le128 D off).extractLsb' (8 * t) 8 = D.getD (off + t) 0 :=
  extractLsb'_of_bytes (byte := fun t => D.getD (off + t) 0) (fun _ => getLsbD_le128 D off) (by omega)

theorem laneLow_le128 (D : List Byte) (off : Nat) : laneLow (le128 D off) = le64 D off := by
  apply BitVec.eq_of_getLsbD_eq
  intro i hi
  rw [laneLow, BitVec.getLsbD_extractLsb', getLsbD_le128 D off (by omega), getLsbD_le64 D off hi]
  simp [hi]

theorem laneHigh_le128 (D : List Byte) (off : Nat) : laneHigh (le128 D off) = le64 D (off + 8) := by
  apply BitVec.eq_of_getLsbD_eq
  intro i hi
  rw [laneHigh, BitVec.getLsbD_extractLsb', getLsbD_le128 D off (by omega), getLsbD_le64 D _ hi,
    show off + (64 + i) / 8 = off + 8 + i / 8 by omega, show (64 + i) % 8 = i % 8 by omega]
  simp [hi]

/-! ### The lane as a polynomial (42_clmul_folder.md R101) -/

/-- The bytes of a load that stays inside the payload, read by their position in it. -/
theorem getD_payBytes (D : List Byte) (off : Nat) {n t : Nat} (ht : t < n) :
    (payBytes D off n).getD t 0 = D.getD (off + t) 0 := by
  simp [payBytes, List.getD, ht]

theorem length_payBytes {D : List Byte} {off n : Nat} (h : off + n ≤ D.length) : (payBytes D off n).length = n := by
  rw [payBytes, List.length_take, List.length_drop]
  omega

/-- Coefficient n is bit 127 - n of the lane, and that is bit 7 - n % 8 of byte 15 - n / 8 of the load. -/
theorem lanePhi_le128 {D : List Byte} {off : Nat} (h : off + 16 ≤ D.length) :
    lanePhi (le128 D off) = delta (payBytes D off 16) := by
  ext n
  rw [coeff_lanePhi, coeff_delta, length_payBytes h]
  refine ite_congr rfl (fun (hn : n < 128) => ?_) fun _ => rfl
  rw [getLsbD_le128 D off (by omega), getD_payBytes D off (by omega),
    show (127 - n) / 8 = 16 - 1 - n / 8 by omega, show (127 - n) % 8 = 7 - n % 8 by omega]

/-- Settles O30: the bytes, the halves and the polynomial of a load, each read off its bits. -/
theorem laneHoldsSixteenBytes : Obligations.LaneHoldsSixteenBytes :=
  ⟨fun D off _ _ => le64_byte D off, fun D off h =>
    ⟨laneLow_le128 D off, laneHigh_le128 D off, fun _ => le128_byte D off, lanePhi_le128 h⟩⟩

end Sys2Proof.Machine

/-! The encoding (30_encoding.md): the decoder and the encoder undo each other (R61, R64), the opcode map as mask and
match is the decoder (R64, R65), and a supplied frame is consumed by the extent that its OPC gives it (R62). -/

namespace Sys2Proof

/-! ### Every command at once -/

/-- The lemmas of `Laws.Extent`, one per constructor, are all commands. -/
theorem extent_statement (i : Instr) : Laws.Extent.Statement i := by
  cases i with
  | nop => exact Laws.Extent.nop
  | tgen => exact Laws.Extent.tgen
  | probe => exact Laws.Extent.probe
  | setcap v => exact Laws.Extent.setcap v
  | reset => exact Laws.Extent.reset
  | update len => exact Laws.Extent.update len
  | sum => exact Laws.Extent.sum
  | checksum len => exact Laws.Extent.checksum len
  | size => exact Laws.Extent.size
  | blksize => exact Laws.Extent.blksize
  | rdstate => exact Laws.Extent.rdstate
  | wrstate opw => exact Laws.Extent.wrstate opw

theorem length_encode (i : Instr) : (encode i).length = i.extent.words := by
  cases i <;> rfl

/-- Settles O1: the command's own words decode to it, and are as many as its frame has. -/
theorem decodeInvertsEncode : Obligations.DecodeInvertsEncode :=
  fun i rest hw => ⟨Machine.decode_encode_append hw rest, length_encode i⟩

/-! ### Selecting a row (R61, R64) -/

/-- The fields that a format requires to be zero are zero in `cw` (R61). -/
def Format.Legal (f : Format) (cw : Word) : Prop :=
  match f with
  | .F0 | .FW => argField cw = 0 ∧ lenField cw = 0
  | .FA => argHighField cw = 0 ∧ lenField cw = 0
  | .FL => argField cw = 0

/-- The mask of a format: OPC and the fields that must be zero. -/
def Format.mask : Format → Word
  | .F0 | .FW => 0xFFFFFFFFFFFFFFFF
  | .FA => 0xFFFEFFFFFFFFFFFF
  | .FL => 0xFFFF000000000000

/-- The opcode that a row is for. -/
def OpcodeRow.opc (r : OpcodeRow) : BitVec 8 := opcField r.pattern

theorem eq_commandWord_iff (w : Word) (o a : BitVec 8) (l : Nat) :
    w = commandWord o a l ↔ opcField w = o ∧ argField w = a ∧ lenField w = BitVec.ofNat 48 l := by
  constructor
  · rintro rfl
    exact ⟨opcField_commandWord o a l, argField_commandWord o a l, lenField_commandWord o a l⟩
  · rintro ⟨ho, ha, hl⟩
    refine eq_of_fields ?_ ?_ ?_
    · rw [ho, opcField_commandWord]
    · rw [ha, argField_commandWord]
    · rw [hl, lenField_commandWord]

theorem opcField_and (v w : Word) : opcField (v &&& w) = opcField v &&& opcField w := BitVec.extractLsb'_and

theorem argField_and (v w : Word) : argField (v &&& w) = argField v &&& argField w := BitVec.extractLsb'_and

theorem lenField_and (v w : Word) : lenField (v &&& w) = lenField v &&& lenField w := BitVec.extractLsb'_and

theorem argHighField_eq_extractLsb' (cw : Word) : argHighField cw = (argField cw).extractLsb' 1 7 := by
  rw [← commandWord_fields cw, argHighField_commandWord, argField_commandWord]

theorem argField_and_eq_zero_iff (cw : Word) : argField cw &&& 0xFE = 0 ↔ argHighField cw = 0 := by
  rw [argHighField_eq_extractLsb']
  exact (by decide : ∀ a : BitVec 8, a &&& 0xFE = 0 ↔ a.extractLsb' 1 7 = 0) (argField cw)

theorem opcField_mask (f : Format) : opcField f.mask = BitVec.allOnes 8 := by
  cases f <;> rfl

/-- What a format's mask leaves of a word is a bare OPC exactly when the word is legal in the format. -/
theorem and_mask_eq_iff (f : Format) (cw : Word) (o : BitVec 8) :
    cw &&& f.mask = commandWord o 0 0 ↔ opcField cw = o ∧ f.Legal cw := by
  rw [eq_commandWord_iff, opcField_and, argField_and, lenField_and, opcField_mask, BitVec.and_allOnes]
  cases f with
  | F0 | FW =>
    rw [show argField (Format.mask _) = BitVec.allOnes 8 from rfl,
      show lenField (Format.mask _) = BitVec.allOnes 48 from rfl, BitVec.and_allOnes, BitVec.and_allOnes]
    rfl
  | FA =>
    rw [show argField (Format.mask _) = 0xFE from rfl, show lenField (Format.mask _) = BitVec.allOnes 48 from rfl,
      argField_and_eq_zero_iff, BitVec.and_allOnes]
    rfl
  | FL =>
    rw [show argField (Format.mask _) = BitVec.allOnes 8 from rfl, show lenField (Format.mask _) = 0#48 from rfl,
      BitVec.and_allOnes, BitVec.and_zero]
    exact and_congr_right fun _ => and_iff_left rfl

/-- Every row has the mask of its format and matches a bare OPC. -/
theorem row_form : ∀ r ∈ opcodeRows, r.mask = r.format.mask ∧ r.pattern = commandWord r.opc 0 0 := by decide

theorem selects_iff {r : OpcodeRow} (hr : r ∈ opcodeRows) (cw : Word) :
    r.selects cw = true ↔ opcField cw = r.opc ∧ r.format.Legal cw := by
  obtain ⟨hm, hp⟩ := row_form r hr
  rw [OpcodeRow.selects, beq_iff_eq, hm, hp]
  exact and_mask_eq_iff _ _ _

theorem row_eq_of_opc : ∀ r ∈ opcodeRows, ∀ r' ∈ opcodeRows, r.opc = r'.opc → r = r' := by decide

theorem row_eq_of_mnemonic : ∀ r ∈ opcodeRows, ∀ r' ∈ opcodeRows, r.mnemonic = r'.mnemonic → r = r' := by decide

theorem assignedOpcodes_eq : assignedOpcodes = opcodeRows.map OpcodeRow.opc := by decide

theorem mem_assignedOpcodes_iff (o : BitVec 8) : o ∈ assignedOpcodes ↔ ∃ r ∈ opcodeRows, r.opc = o := by
  rw [assignedOpcodes_eq, List.mem_map]

theorem selects_unique {r r' : OpcodeRow} (hr : r ∈ opcodeRows) (hr' : r' ∈ opcodeRows) {cw : Word}
    (h : r.selects cw = true) (h' : r'.selects cw = true) : r = r' :=
  row_eq_of_opc r hr r' hr' (((selects_iff hr cw).mp h).1.symm.trans ((selects_iff hr' cw).mp h').1)

/-! ### Everything the decoder can answer (R64, R65) -/

/-- `Encodes i ws`: the command `i` is well formed, and `ws` begins with its encoding. -/
def Encodes (i : Instr) (ws : List Word) : Prop := i.wellFormed = true ∧ ∃ tail, encode i ++ tail = ws

theorem Encodes.decode {i : Instr} {ws : List Word} (h : Encodes i ws) : decode ws = .ok i := by
  obtain ⟨hw, rest, rfl⟩ := h
  exact Machine.decode_encode_append hw rest

/-- A word that is its OPC alone begins the encoding that begins so. -/
theorem encodes_of_bare {i : Instr} {cw : Word} {o : BitVec 8} {rest tail : List Word} (hw : i.wellFormed = true)
    (he : encode i ++ tail = commandWord o 0 0 :: rest) (ho : opcField cw = o) (hl : Format.F0.Legal cw) :
    Encodes i (cw :: rest) := by
  obtain ⟨ha, hn⟩ := hl
  rw [(eq_commandWord_iff cw o 0 0).mpr ⟨ho, ha, hn⟩]
  exact ⟨hw, tail, he⟩

theorem encodes_setcap {cw : Word} (rest : List Word) (ho : opcField cw = 0x03) (hl : Format.FA.Legal cw) :
    Encodes (.setcap (vField cw)) (cw :: rest) := by
  obtain ⟨ha, hn⟩ := hl
  have hv : argField cw = if vField cw then 1 else 0 := by
    rw [argField_eq, ha]
    cases vField cw <;> rfl
  have hcw : cw = commandWord 0x03 (if vField cw then 1 else 0) 0 := (eq_commandWord_iff _ _ _ _).mpr ⟨ho, hv, hn⟩
  exact ⟨rfl, rest, congrArg (· :: rest) hcw.symm⟩

/-- A word that is its OPC and LEN begins the encoding with that LEN. -/
theorem encodes_of_payload {i : Instr} {cw : Word} {o : BitVec 8} (rest : List Word) (hw : i.wellFormed = true)
    (he : encode i = [commandWord o 0 (lenField cw).toNat]) (ho : opcField cw = o) (hl : Format.FL.Legal cw) :
    Encodes i (cw :: rest) := by
  have hcw : commandWord o 0 (lenField cw).toNat = cw := by
    rw [← ho, ← (show argField cw = 0 from hl), commandWord_fields]
  exact ⟨hw, rest, by rw [he, hcw]; rfl⟩

section
variable {cw : Word} {rest : List Word}

/-- A word that is legal in the format of its OPC's row begins the encoding of a command of that row. -/
theorem encodes_of_legal (hrest : opcField cw = 0x17 → rest ≠ []) : ∀ r ∈ opcodeRows,
    opcField cw = r.opc → r.format.Legal cw → ∃ i, i.mnemonic = r.mnemonic ∧ Encodes i (cw :: rest) := by
  have hlen : (lenField cw).toNat < 2 ^ 48 := (lenField cw).isLt
  simp only [opcodeRows, List.forall_mem_cons]
  exact ⟨fun ho hl => ⟨.nop, rfl, encodes_of_bare (tail := rest) rfl rfl ho hl⟩,
    fun ho hl => ⟨.tgen, rfl, encodes_of_bare (tail := rest) rfl rfl ho hl⟩,
    fun ho hl => ⟨.probe, rfl, encodes_of_bare (tail := rest) rfl rfl ho hl⟩,
    fun ho hl => ⟨.setcap _, rfl, encodes_setcap rest ho hl⟩,
    fun ho hl => ⟨.reset, rfl, encodes_of_bare (tail := rest) rfl rfl ho hl⟩,
    fun ho hl => ⟨.update _, rfl, encodes_of_payload rest ((wellFormed_update _).mpr hlen) rfl ho hl⟩,
    fun ho hl => ⟨.sum, rfl, encodes_of_bare (tail := rest) rfl rfl ho hl⟩,
    fun ho hl => ⟨.checksum _, rfl, encodes_of_payload rest ((wellFormed_checksum _).mpr hlen) rfl ho hl⟩,
    fun ho hl => ⟨.size, rfl, encodes_of_bare (tail := rest) rfl rfl ho hl⟩,
    fun ho hl => ⟨.blksize, rfl, encodes_of_bare (tail := rest) rfl rfl ho hl⟩,
    fun ho hl => ⟨.rdstate, rfl, encodes_of_bare (tail := rest) rfl rfl ho hl⟩,
    fun ho hl => by
      obtain ⟨opw, tail, rfl⟩ := List.exists_cons_of_ne_nil (hrest ho)
      exact ⟨.wrstate opw, rfl, encodes_of_bare (tail := tail) rfl rfl ho hl⟩,
    List.forall_mem_nil _⟩

/-- A word that is not legal in the format of its OPC's row is rejected for its fields (cause 2). -/
theorem decode_of_not_legal (hrest : opcField cw = 0x17 → rest ≠ []) {r : OpcodeRow} (hr : r ∈ opcodeRows)
    (ho : opcField cw = r.opc) (hn : ¬ r.format.Legal cw) : decode (cw :: rest) = .error .illField := by
  simp only [opcodeRows, List.mem_cons, List.not_mem_nil, or_false] at hr
  rw [decode_cons, ho]
  obtain rfl | rfl | rfl | rfl | rfl | rfl | rfl | rfl | rfl | rfl | rfl | rfl := hr
  iterate 11 exact if_neg hn
  obtain ⟨opw, tail, rfl⟩ := List.exists_cons_of_ne_nil (hrest ho)
  exact if_neg hn

theorem decode_of_not_assigned (h : opcField cw ∉ assignedOpcodes) : decode (cw :: rest) = .error .illOpc := by
  rw [decode_cons]
  split
  case h_13 => rfl
  all_goals
    next ho =>
      rw [ho] at h
      exact absurd (by decide) h

/-- Everything the decoder answers for a command word whose operand word, where it has one, is there: an OPC that
is not assigned, the command of the row that the word selects, or an assigned OPC without a row. -/
theorem decode_cases (hrest : opcField cw = 0x17 → rest ≠ []) :
    (opcField cw ∉ assignedOpcodes ∧ decode (cw :: rest) = .error .illOpc) ∨
    (∃ r ∈ opcodeRows, r.selects cw = true ∧
      ∃ i, i.mnemonic = r.mnemonic ∧ Encodes i (cw :: rest) ∧ decode (cw :: rest) = .ok i) ∨
    (opcField cw ∈ assignedOpcodes ∧ (∀ r ∈ opcodeRows, r.selects cw = false) ∧
      decode (cw :: rest) = .error .illField) := by
  by_cases ha : opcField cw ∈ assignedOpcodes
  · obtain ⟨r, hr, ho⟩ := (mem_assignedOpcodes_iff _).mp ha
    by_cases hl : r.format.Legal cw
    · obtain ⟨i, hm, he⟩ := encodes_of_legal hrest r hr ho.symm hl
      exact .inr (.inl ⟨r, hr, (selects_iff hr cw).mpr ⟨ho.symm, hl⟩, i, hm, he, he.decode⟩)
    · refine .inr (.inr ⟨ha, fun r' hr' => ?_, decode_of_not_legal hrest hr ho.symm hl⟩)
      refine Bool.eq_false_iff.mpr fun hs => hl ?_
      obtain ⟨ho', hl'⟩ := (selects_iff hr' cw).mp hs
      rwa [row_eq_of_opc r hr r' hr' (ho.trans ho')]
  · exact .inl ⟨ha, decode_of_not_assigned ha⟩

/-- A WRSTATE word alone decodes to nothing. -/
theorem ne_nil_of_decode_ok {i : Instr} (h : decode (cw :: rest) = .ok i) : opcField cw = 0x17 → rest ≠ [] := by
  rintro ho rfl
  rw [decode_cons, ho] at h
  cases h

end

/-- Whatever decodes is an encoding: of the decoder's answers only one is a command. -/
theorem encodes_of_decode {ws : List Word} {i : Instr} (h : decode ws = .ok i) : Encodes i ws := by
  cases ws with
  | nil => cases h
  | cons cw rest =>
    obtain ⟨-, hd⟩ | ⟨-, -, -, j, -, he, hd⟩ | ⟨-, -, hd⟩ := decode_cases (ne_nil_of_decode_ok h) <;>
      rw [h] at hd
    · cases hd
    · cases hd
      exact he
    · cases hd

/-- Settles O2: what decodes begins with its encoding, whose length is that of the frame's words. -/
theorem encodeInvertsDecode : Obligations.EncodeInvertsDecode := by
  intro ws i h
  obtain ⟨hw, tail, rfl⟩ := encodes_of_decode h
  exact ⟨hw, List.take_left' (length_encode i)⟩

/-- Settles O3: of the three answers of the decoder only a command selects a row, the one of its mnemonic. -/
theorem decodeSelectsTheRow : Obligations.DecodeSelectsTheRow := by
  refine ⟨fun r hr cw opw rest => ?_, fun r hr r' hr' cw => selects_unique hr hr'⟩
  obtain ⟨ha, hd⟩ | ⟨r', hr', hs', i, hm, -, hd⟩ | ⟨-, hs', hd⟩ :=
    decode_cases (cw := cw) (rest := opw :: rest) fun _ => List.cons_ne_nil _ _ <;> simp only [hd]
  · refine iff_of_false (fun hs => ha ?_) (by simp)
    exact (mem_assignedOpcodes_iff _).mpr ⟨r, hr, ((selects_iff hr cw).mp hs).1.symm⟩
  · constructor
    · intro hs
      exact ⟨i, rfl, by rw [hm, selects_unique hr hr' hs hs']⟩
    · rintro ⟨_, ⟨⟩, hm'⟩
      rwa [row_eq_of_mnemonic r hr r' hr' (hm'.symm.trans hm)]
  · exact iff_of_false (by simp [hs' r hr]) (by simp)

/-- Settles O4: the two illegal answers of the decoder, and the command between them, exclude each other. -/
theorem illegalWordCauses : Obligations.IllegalWordCauses := by
  intro cw opw rest
  obtain ⟨ha, hd⟩ | ⟨r, hr, hs, i, -, -, hd⟩ | ⟨ha, hs, hd⟩ :=
    decode_cases (cw := cw) (rest := opw :: rest) fun _ => List.cons_ne_nil _ _ <;> rw [hd]
  · exact ⟨iff_of_true rfl ha, iff_of_false nofun fun h => ha h.1⟩
  · have ha : opcField cw ∈ assignedOpcodes :=
      (mem_assignedOpcodes_iff _).mpr ⟨r, hr, ((selects_iff hr cw).mp hs).1.symm⟩
    exact ⟨iff_of_false nofun fun h => h ha, iff_of_false nofun fun h => by simp [h.2 r hr] at hs⟩
  · exact ⟨iff_of_false nofun fun h => h ha, iff_of_true rfl ⟨ha, hs⟩⟩

/-- Settles O5: the decoder evaluates on each of the ten words. -/
theorem sampleWordsDecode : Obligations.SampleWordsDecode :=
  ⟨rfl, rfl, rfl, rfl, rfl, rfl, rfl, rfl, rfl, rfl⟩

end Sys2Proof

namespace Sys2Proof.Machine

/-! ### A supplied frame is consumed (R62) -/

/-- `s.Consumed e t`: from `s` to `t` a frame of the extent `e` left the ports and was counted. -/
structure State.Consumed (s : State) (e : Extent) (t : State) : Prop where
  words : t.cmdPort = s.cmdPort.drop e.words
  bytes : t.dataPort = s.dataPort.drop e.bytes
  count : t.cidx = s.cidx + 1

theorem consumed_raiseIll (s : State) (c : IllCause) (e : Extent) : s.Consumed e (s.raiseIll c e) :=
  ⟨rfl, rfl, rfl⟩

/-- A command with its payload there does not wait: it completes its frame, or SETCAP raises Ill(3) for it. -/
theorem exec_consumes {i : Instr} {s : State} (hp : i.extent.bytes ≤ s.dataPort.length) :
    ∃ t, exec i s = .next t ∧ s.Consumed i.extent t := by
  cases i with
  | nop | tgen | probe | reset | sum | size | blksize | rdstate | wrstate => exact ⟨_, rfl, rfl, rfl, rfl⟩
  | setcap v =>
    rw [exec_setcap]
    split
    · exact ⟨_, rfl, rfl, rfl, rfl⟩
    · exact ⟨_, rfl, consumed_raiseIll s .priv .word⟩
  | update len =>
    have hl : len ≤ s.dataPort.length := hp
    rw [exec_update, if_pos hl]
    exact ⟨_, rfl, rfl, rfl, rfl⟩
  | checksum len =>
    have hl : len ≤ s.dataPort.length := hp
    rw [exec_checksum, if_pos hl]
    exact ⟨_, rfl, rfl, rfl, rfl⟩

/-- The extent that the command word tells is that of the command it decodes to. -/
theorem frameExtent_of_encodes {i : Instr} {cw : Word} {rest : List Word} (h : Encodes i (cw :: rest)) :
    frameExtent cw = i.extent := by
  obtain ⟨hw, tail, hcw⟩ := h
  obtain ⟨cw', rest', he, -, hx, -⟩ := extent_statement i hw
  rw [he] at hcw
  exact List.head_eq_of_cons_eq hcw ▸ hx

theorem frameExtent_operand {cw : Word} (h : opcField cw = 0x17) : frameExtent cw = .operand := by
  rw [frameExtent, h]
  rfl

theorem frameExtent_payload {cw : Word} (h : opcField cw = 0x11 ∨ opcField cw = 0x13) :
    frameExtent cw = .payload (lenField cw).toNat := by
  obtain h | h := h <;> rw [frameExtent, h] <;> rfl

theorem frameExtent_word {cw : Word} (h₁ : opcField cw ≠ 0x11) (h₂ : opcField cw ≠ 0x13)
    (h₃ : opcField cw ≠ 0x17) : frameExtent cw = .word := by
  unfold frameExtent
  split
  · exact absurd ‹_› h₁
  · exact absurd ‹_› h₂
  · exact absurd ‹_› h₃
  · rfl

/-- An accepting engine consumes a supplied frame whole, legal or illegal. -/
theorem step_consumes {s : State} {cw : Word} {rest : List Word} (ha : s.Accepting) (hc : s.cmdPort = cw :: rest)
    (hs : s.supplied (frameExtent cw) = true) : ∃ t, step s = .next t ∧ s.Consumed (frameExtent cw) t := by
  obtain ⟨hwords, hbytes⟩ := (supplied_iff _ _).mp hs
  have hrest : opcField cw = 0x17 → rest ≠ [] := by
    rintro ho rfl
    rw [frameExtent_operand ho, hc] at hwords
    simp [Extent.operand] at hwords
  obtain ⟨-, hd⟩ | ⟨-, -, -, i, -, he, hd⟩ | ⟨-, -, hd⟩ := decode_cases hrest <;> rw [← hc] at hd
  · exact ⟨_, step_of_illOpc ha hc hs hd, consumed_raiseIll s _ _⟩
  · rw [step_of_decode ha.1 ha.2 hd, frameExtent_of_encodes he]
    exact exec_consumes (frameExtent_of_encodes he ▸ hbytes)
  · exact ⟨_, step_of_illField ha hc hs hd, consumed_raiseIll s _ _⟩

/-- Settles O6: `step_consumes` at the extent of each OPC. -/
theorem frameExtentByOpcAlone : Obligations.FrameExtentByOpcAlone := by
  intro s cw rest ha hc
  have hstep : ∀ e, frameExtent cw = e → e.words ≤ s.cmdPort.length → e.bytes ≤ s.dataPort.length →
      ∃ t, step s = .next t ∧ s.Consumed e t := by
    rintro e rfl hw hb
    exact step_consumes ha hc ((supplied_iff _ _).mpr ⟨hw, hb⟩)
  refine ⟨fun ho hb => ?_, fun ho opw rest' hr => ?_, fun h₁ h₂ h₃ => ?_⟩
  · obtain ⟨t, ht, hw, hb, hn⟩ := hstep _ (frameExtent_payload ho) (by simp [hc, Extent.payload]) hb
    exact ⟨t, ht, by rw [hw, hc]; rfl, hb, hn⟩
  · obtain ⟨t, ht, hw, hb, hn⟩ := hstep _ (frameExtent_operand ho) (by simp [hc, hr, Extent.operand]) (Nat.zero_le _)
    exact ⟨t, ht, by rw [hw, hc, hr]; rfl, hb, hn⟩
  · obtain ⟨t, ht, hw, hb, hn⟩ := hstep _ (frameExtent_word h₁ h₂ h₃) (by simp [hc, Extent.word]) (Nat.zero_le _)
    exact ⟨t, ht, by rw [hw, hc]; rfl, hb, hn⟩

/-! ### No step stops (R67) -/

theorem exec_next (i : Instr) (s : State) : ∃ t, exec i s = .next t := by
  cases i <;> exact ⟨_, rfl⟩

/-- Settles O8: reset, boot, every command and every rejection answer a next state. -/
theorem noStepStops : Obligations.NoStepStops := by
  intro s
  cases hr : s.rst with
  | true => exact ⟨_, step_of_rst hr⟩
  | false =>
    cases hb : s.READY with
    | false => exact ⟨_, step_of_boot hr hb⟩
    | true =>
      cases hd : decode s.cmdPort with
      | ok i =>
        rw [step_of_decode hr hb hd]
        exact exec_next i s
      | error e => exact ⟨_, step_of_reject hr hb hd⟩

/-! ### The assembler (R68, R69) -/

theorem assemble_of_parse {text : String} {line : AsmLine} (hp : parseLine text.toList = some line)
    (he : line.encodable = true) : assemble text = some line.frames := by
  simp [assemble, hp, he]

/-- Settles O60: what each line parses to; its frames are then those of R68 and R69. -/
theorem assemblerLines : Obligations.AssemblerLines := by
  refine ⟨assemble_of_parse (line := .update (.ascii "123456789".toList)) ?_ rfl,
    assemble_of_parse (line := .command (.wrstate 0x0123456789ABCDEF)) ?_ rfl,
    assemble_of_parse (line := .hash (.hex [0xEF, 0x01])) ?_ rfl,
    assemble_of_parse (line := .forcefold) ?_ rfl,
    assemble_of_parse (line := .word 0xFF00000000000005) ?_ rfl⟩ <;> decide +kernel

end Sys2Proof.Machine

/-! TGEN (40_table_generator.md): BITSTEP and the table entries modulo P (R80, R81, R83), the construction that reads
the most significant bit first (R81), a byte fed bit by bit (R84), and the command (R82). -/

namespace Sys2Proof.Machine

open Polynomial

/-! ### BITSTEP (R80) -/

theorem phi_bitStep (c : Word) : phi (bitStep c) = (phi c * X) %ₘ polyP := by
  rw [phi_eq_mod_iff, red_bitStep, map_mul]

/-- The shift clears bit 63, and POLY_R sets it. -/
theorem getLsbD_bitStep_last (c : Word) : (bitStep c).getLsbD 63 = c.getLsbD 0 := by
  have hshift : (c >>> 1).getLsbD 63 = false := by simp
  have hpoly : POLY_R.getLsbD 63 = true := by decide
  cases hc : c.getLsbD 0 with
  | true => rw [bitStep, if_pos hc, BitVec.getLsbD_xor, hshift, hpoly]; rfl
  | false => rw [bitStep, hc, if_neg Bool.false_ne_true, hshift]

/-- Settles O21: the definition, its meaning modulo P, and the values it evaluates to. -/
theorem bitStepMultipliesByX : Obligations.BitStepMultipliesByX :=
  ⟨fun _ => rfl, phi_bitStep, by decide +kernel, by decide +kernel, by decide +kernel, by decide +kernel,
    fun c => by rw [getLsbD_bitStep_last]⟩

/-! ### Linearity -/

theorem tabEntry_xor (a b : Byte) : tabEntry (a ^^^ b) = tabEntry a ^^^ tabEntry b := by
  apply eq_of_red
  simp only [red_tabEntry, phi_xor, beta_xor, map_add, add_mul]

theorem tabEntry_zero : tabEntry 0 = 0 := by decide +kernel

/-- The xor of some entries is the entry of the xor of their indices. -/
theorem foldl_xor_tabEntry (l : List Nat) :
    l.foldl (fun x i => x ^^^ tabEntry (BitVec.ofNat 8 i)) 0 =
      tabEntry (l.foldl (fun x i => x ^^^ BitVec.ofNat 8 i) 0) := by
  rw [← tabEntry_zero]
  exact List.foldl_hom tabEntry fun x i => (tabEntry_xor x _).symm

/-! ### The most significant bit first (R81) -/

theorem reverse_POLY_N : POLY_N.reverse = POLY_R := by decide +kernel

theorem reverse_xor {w : Nat} (a b : BitVec w) : (a ^^^ b).reverse = a.reverse ^^^ b.reverse := by
  apply BitVec.eq_of_getLsbD_eq
  intro i _
  simp only [BitVec.getLsbD_reverse, BitVec.getLsbD_xor, BitVec.getMsbD_xor]

theorem reverse_shiftLeft {w : Nat} (a : BitVec w) (n : Nat) : (a <<< n).reverse = a.reverse >>> n := by
  apply BitVec.eq_of_getLsbD_eq
  intro i _
  rw [BitVec.getLsbD_reverse, BitVec.getMsbD_shiftLeft, BitVec.getLsbD_ushiftRight, BitVec.getLsbD_reverse,
    Nat.add_comm]

/-- A reversed byte at the top of a reversed word is the byte at the bottom. -/
theorem reverse_topByte_reverse (b : Byte) : (b.reverse.setWidth 64 <<< 56).reverse = b.setWidth 64 := by
  apply BitVec.eq_of_getLsbD_eq
  intro i hi
  rw [reverse_shiftLeft, BitVec.getLsbD_ushiftRight, BitVec.getLsbD_reverse, BitVec.getMsbD_setWidth]
  simp [BitVec.getMsbD_reverse, hi]

/-- The non-reflected step is BITSTEP seen in the mirror. -/
theorem reverse_normalStep (c : Word) : (normalStep c).reverse = bitStep c.reverse := by
  have h0 : c.reverse.getLsbD 0 = c.getLsbD 63 := by
    rw [BitVec.getLsbD_reverse]
    simp [BitVec.getMsbD]
  rw [normalStep, bitStep, h0, apply_ite BitVec.reverse, reverse_xor, reverse_shiftLeft, reverse_POLY_N]

theorem reverse_normalSteps (l : List Nat) (c : Word) :
    (l.foldl (fun c _ => normalStep c) c).reverse = bitSteps l.length c.reverse := by
  induction l generalizing c with
  | nil => rfl
  | cons _ l ih => rw [List.foldl_cons, ih, reverse_normalStep, List.length_cons, bitSteps]

theorem reverse_normalEntry (i : Byte) : (normalEntry i.reverse).reverse = tabEntry i := by
  rw [normalEntry, reverse_normalSteps, reverse_topByte_reverse, List.length_range, tabEntry]

/-! ### The table entries (R81, R83) -/

theorem phi_tabEntry (i : Byte) : phi (tabEntry i) = (beta i * X ^ 64) %ₘ polyP := by
  rw [phi_eq_mod_iff, red_tabEntry, map_mul, map_pow]

theorem phi_sliceTab (k : Nat) (i : Byte) : phi (sliceTab k i) = (beta i * X ^ (64 + 8 * k)) %ₘ polyP := by
  rw [phi_eq_mod_iff, red_sliceTab, map_mul, map_pow]

/-- Table `k` holds what the byte and `k` zero bytes make of state 0. -/
theorem sliceTab_eq_refUpd (k : Nat) (i : Byte) : sliceTab k i = refUpd tabValue 0 (i :: List.replicate k 0) := by
  apply eq_of_red
  rw [red_sliceTab, red_refUpd, phi_zero, delta, delta_zeros, List.length_replicate]
  simp only [map_zero, zero_mul, zero_add, add_zero, map_mul, map_pow]
  ring

/-- Settles O22: eight BITSTEPs by definition, and the remainder and the mirrored construction by their lemmas. -/
theorem tableEntryIsRemainder : Obligations.TableEntryIsRemainder :=
  ⟨fun _ => rfl, phi_tabEntry, fun i => (reverse_normalEntry i).symm, tabEntry_zero, by decide +kernel,
    by decide +kernel, by decide +kernel, by decide +kernel, by decide +kernel⟩

/-- Settles O23: the recurrence by definition, and both meanings of an entry by their remainders. -/
theorem sliceEntriesAdvanceByZeroBytes : Obligations.SliceEntriesAdvanceByZeroBytes :=
  ⟨fun k i => ⟨rfl, rfl, phi_sliceTab k i, sliceTab_eq_refUpd k i⟩, by decide +kernel, by decide +kernel,
    by decide +kernel⟩

/-! ### A byte fed bit by bit (R84) -/

/-- A bit entered at the low end of the register is the coefficient of x^63. -/
theorem phi_ofBool (b : Bool) : phi ((BitVec.ofBool b).setWidth 64) = if b then X ^ 63 else 0 := by
  cases b with
  | false => exact phi_zero
  | true =>
    apply mul_right_cancel₀ (X_ne_zero (R := ZMod 2))
    rw [phi_mul_X, show (BitVec.ofBool true).setWidth 64 >>> 1 = (0 : Word) from rfl, phi_zero]
    exact zero_add (X ^ 64)

/-- Words fed one before each BITSTEP: each is multiplied by x once for every step still to come. -/
theorem red_feed (f : Nat → Word) (n : Nat) (s : Word) :
    red (phi ((List.range n).foldl (fun c i => bitStep (c ^^^ f i)) s)) =
      red (phi s) * red X ^ n + ∑ i ∈ Finset.range n, red (phi (f i)) * red X ^ (n - i) := by
  induction n with
  | zero => simp
  | succ n ih =>
    have hsum : ∑ i ∈ Finset.range n, red (phi (f i)) * red X ^ (n + 1 - i) =
        (∑ i ∈ Finset.range n, red (phi (f i)) * red X ^ (n - i)) * red X := by
      rw [Finset.sum_mul]
      refine Finset.sum_congr rfl fun i hi => ?_
      rw [Nat.sub_add_comm (Finset.mem_range.mp hi).le, pow_succ, mul_assoc]
    rw [List.range_succ, List.foldl_append, List.foldl_cons, List.foldl_nil, red_bitStep, phi_xor, map_add, ih,
      Finset.sum_range_succ, hsum, Nat.add_sub_cancel_left]
    ring

theorem red_bitFeed (s : Word) (b : Byte) :
    red (phi (bitFeed s b)) = red (phi s) * red X ^ 8 + red (beta b) * red X ^ 64 := by
  rw [bitFeed, red_feed, beta, map_sum, Finset.sum_mul]
  refine congrArg _ (Finset.sum_congr rfl fun i hi => ?_)
  have hi : i < 8 := Finset.mem_range.mp hi
  rw [phi_ofBool]
  split
  · rw [map_pow, map_pow, ← pow_add, ← pow_add, show 63 + (8 - i) = 7 - i + 64 by omega]
  · simp

/-- The byte step is eight one-bit steps. -/
theorem refStep_eq_bitFeed (s : Word) (b : Byte) : refStep tabValue s b = bitFeed s b := by
  apply eq_of_red
  rw [red_refStep, red_bitFeed]

theorem refStep_tabValue (s : Word) (b : Byte) :
    refStep tabValue s b = tabEntry (byteOf (s ^^^ b.setWidth 64) 0) ^^^ (s >>> 8) := by
  rw [refStep, entry_tabValue, sliceTab]

theorem tabEntry_eq_bitFeed (i : Byte) : tabEntry i = bitFeed 0 i := by
  apply eq_of_red
  rw [red_tabEntry, red_bitFeed, phi_zero, map_zero, zero_mul, zero_add]

/-- Settles O24: linearity, and the byte step as a feed; the xor of all 256 indices is 0, so that of the entries is. -/
theorem tableProperties : Obligations.TableProperties := by
  refine ⟨tabEntry_zero, by decide +kernel, tabEntry_xor, ?_, tabEntry_eq_bitFeed, fun s b => ?_⟩
  · have hindices : (List.range 256).foldl (fun x i => x ^^^ BitVec.ofNat 8 i) 0 = 0 := by decide +kernel
    rw [foldl_xor_tabEntry, hindices, tabEntry_zero]
  · rw [← refStep_tabValue, refStep_eq_bitFeed]

/-! ### The command's words (30_encoding.md R64, R65) -/

/-- A ready engine runs a command from its own encoding. -/
theorem wordsRun_encode {i : Instr} (hw : i.wellFormed = true) : WordsRun (encode i) i :=
  fun s rest ha => stepRunsDecodedCommand s i rest ha hw

/-- A frame of format F0 is its command word, and a non-zero field in it raises Ill(2). -/
theorem fieldFault_of_F0 {o : BitVec 8} (ho : ∃ r ∈ opcodeRows, r.format = .F0 ∧ r.opc = o) : FieldFault o 1 := by
  obtain ⟨r, hr, hf, rfl⟩ := ho
  have hopc : ∀ r ∈ opcodeRows, r.format = .F0 → r.opc ≠ 0x11 ∧ r.opc ≠ 0x13 ∧ r.opc ≠ 0x17 := by decide
  obtain ⟨h₁, h₂, h₃⟩ := hopc r hr hf
  intro s cw rest ha hc ho hz hw
  have hx : frameExtent cw = .word := frameExtent_word (ho ▸ h₁) (ho ▸ h₂) (ho ▸ h₃)
  have hlegal : ¬ r.format.Legal cw := by
    rw [hf]
    exact not_and_or.mpr hz
  have hd : decode s.cmdPort = .error .illField := by
    rw [hc]
    exact decode_of_not_legal (fun h => absurd h (ho ▸ h₃)) hr ho hlegal
  have hs : s.supplied (frameExtent cw) = true := by
    rw [hx]
    exact (supplied_iff s .word).mpr ⟨hw, Nat.zero_le _⟩
  rw [step_of_illField ha hc hs hd, hx]
  rfl

/-! ### TGEN (R82) -/

theorem tgenBody_of_TV_false {s : State} (h : s.TV = false) :
    s.tgenBody = { s with T := generate Config.slice8 s.T, TV := true } := by
  rw [State.tgenBody, h]
  rfl

/-- A second TGEN writes nothing. -/
theorem tgenBody_of_TV_true {s : State} (h : s.TV = true) : s.tgenBody = s := by
  rw [State.tgenBody, h, if_pos rfl, ← h]

/-- Settles O20: TGEN completes its frame after its body, which generates when TV = 0 and else changes nothing. -/
theorem tgenBuildsTableOnce : Obligations.TgenBuildsTableOnce := by
  refine ⟨fun s hT hwf => ?_, fun s hT => ?_, fieldFault_of_F0 (by decide),
    wordsRun_encode (i := .tgen) rfl⟩
  · refine ⟨generate Config.slice8 s.T, ?_, generate_wf _ hwf, generate_built hwf _, fun a ha => ?_⟩
    · rw [exec_tgen, tgenBody_of_TV_false hT]
      -- the table stays a variable, or `rfl` would evaluate it
      generalize generate Config.slice8 s.T = T
      rfl
    · rw [generate_read _ hwf, if_neg (Nat.not_lt.mpr ha)]
  · rw [exec_tgen, tgenBody_of_TV_true hT]
    rfl

end Sys2Proof.Machine

/-! REF (41_reference_path.md): the byte step and the byte path modulo P (R90, R91), where the state may enter (R92),
and the slicing variant, whose eight lookups are eight byte steps at once (R94, R95). -/

namespace Sys2Proof.Machine

open Polynomial

/-! ### The byte step (R90) -/

theorem phi_refStep (s : Word) (b : Byte) :
    phi (refStep tabValue s b) = (phi s * X ^ 8 + beta b * X ^ 64) %ₘ polyP := by
  rw [phi_eq_mod_iff, red_refStep]
  simp only [map_add, map_mul, map_pow]

/-- The low byte of the state selects entry 0, and only the shift is left. -/
theorem refStep_lowByte (s : Word) : refStep tabValue s (byteOf s 0) = s >>> 8 := by
  rw [refStep_tabValue, byteOf_xor_byte, BitVec.xor_self]
  exact (congrArg (· ^^^ s >>> 8) tabEntry_zero).trans BitVec.zero_xor

/-- Settles O26: the table step by its definition, its meaning and its corner case by their lemmas. -/
theorem refStepAdvancesOneByte : Obligations.RefStepAdvancesOneByte :=
  ⟨fun s b => ⟨refStep_tabValue s b, phi_refStep s b, refStep_lowByte s⟩, by decide +kernel, by decide +kernel,
    by decide +kernel, by decide +kernel, by decide +kernel⟩

/-! ### The bytes in order (R91) -/

theorem refUpd_append (T : Table) (s : Word) (D E : List Byte) :
    refUpd T s (D ++ E) = refUpd T (refUpd T s D) E := List.foldl_append

theorem phi_refUpd (s : Word) (D : List Byte) :
    phi (refUpd tabValue s D) = (phi s * X ^ (8 * D.length) + delta D * X ^ 64) %ₘ polyP := by
  rw [phi_eq_mod_iff, red_refUpd]
  simp only [map_add, map_mul, map_pow]

theorem refUpd_xor (s s' : Word) {D D' : List Byte} (h : D.length = D'.length) :
    refUpd tabValue (s ^^^ s') (List.zipWith (· ^^^ ·) D D') = refUpd tabValue s D ^^^ refUpd tabValue s' D' := by
  apply eq_of_red
  rw [phi_xor, map_add]
  simp only [red_refUpd, delta_xor h, phi_xor, map_add, List.length_zipWith, h, Nat.min_self]
  ring

/-! ### The state in the first eight bytes (R92) -/

theorem length_wordBytes (w : Word) : (wordBytes w).length = 8 := rfl

theorem getD_wordBytes (w : Word) {t : Nat} (ht : t < 8) : (wordBytes w).getD t 0 = byteOf w t := by
  simp [wordBytes, List.getD, ht]

theorem getLsbD_byteOf (w : Word) (t : Nat) {i : Nat} (hi : i < 8) :
    (byteOf w t).getLsbD i = w.getLsbD (8 * t + i) := by
  simp [byteOf, hi]

/-- A word is the polynomial of its bytes. -/
theorem delta_wordBytes (w : Word) : delta (wordBytes w) = phi w := by
  ext n
  rw [coeff_delta, coeff_phi, length_wordBytes]
  refine ite_congr rfl (fun (hn : n < 64) => ?_) fun _ => rfl
  rw [getD_wordBytes w (by omega), getLsbD_byteOf w _ (by omega),
    show 8 * (8 - 1 - n / 8) + (7 - n % 8) = 63 - n by omega]

/-- Eight bytes later the state has the weight x^64 that its bytes have in the input. -/
theorem refUpd_wordBytes (s : Word) {D : List Byte} (h : D.length = 8) :
    refUpd tabValue s D = refUpd tabValue 0 (List.zipWith (· ^^^ ·) D (wordBytes s)) := by
  apply eq_of_red
  rw [red_refUpd, red_refUpd, delta_xor (h.trans (length_wordBytes s).symm), delta_wordBytes, phi_zero, h]
  simp only [map_add, map_zero]
  ring

/-- Settles O27: the order of the bytes by definition, the rest from the remainder of REFUPD. -/
theorem refUpdIsPolynomialRemainder : Obligations.RefUpdIsPolynomialRemainder :=
  ⟨fun T s b D => ⟨rfl, refUpd_cons T s b D⟩, refUpd_append tabValue, phi_refUpd,
    fun s s' _ _ => refUpd_xor s s', fun s D E h => by rw [refUpd_append, refUpd_wordBytes s h, refUpd_append],
    by decide +kernel⟩

/-! ### Slice-by-8 (R94) -/

theorem phi_le64 {D : List Byte} {off : Nat} (h : off + 8 ≤ D.length) :
    phi (le64 D off) = delta (payBytes D off 8) := by
  ext n
  rw [coeff_phi, coeff_delta, length_payBytes h]
  refine ite_congr rfl (fun (hn : n < 64) => ?_) fun _ => rfl
  rw [getLsbD_le64 D off (by omega), getD_payBytes D off (by omega),
    show (63 - n) / 8 = 8 - 1 - n / 8 by omega, show (63 - n) % 8 = 7 - n % 8 by omega]

/-- Byte t of the group has 7 - t bytes after it, the zero bytes that table 7 - t stands for. -/
theorem sliceLookups_tabValue (w : Word) : sliceLookups tabValue w = refUpd tabValue 0 (wordBytes w) := by
  have hbytes : wordBytes w = [byteOf w 0, byteOf w 1, byteOf w 2, byteOf w 3, byteOf w 4, byteOf w 5, byteOf w 6,
    byteOf w 7] := rfl
  apply eq_of_red
  rw [red_refUpd, phi_zero, hbytes]
  simp only [sliceLookups, entry_tabValue, phi_xor, map_add, red_sliceTab, delta, List.length_cons, List.length_nil,
    map_mul, map_pow, map_zero]
  ring

/-- One iteration is the byte path over the group. -/
theorem sliceLookups_group (s : Word) {D : List Byte} (h : 8 ≤ D.length) :
    sliceLookups tabValue (s ^^^ le64 D 0) = refUpd tabValue s (D.take 8) := by
  have hle : phi (le64 D 0) = delta (D.take 8) := phi_le64 (off := 0) (by omega)
  apply eq_of_red
  rw [sliceLookups_tabValue, red_refUpd, red_refUpd, delta_wordBytes, phi_xor, hle, phi_zero,
    List.length_take_of_le h]
  simp only [map_add, map_zero]
  ring

theorem sliceLoop_tabValue {n : Nat} (s : Word) {D : List Byte} (h : 8 * n ≤ D.length) :
    sliceLoop tabValue n s D = refUpd tabValue s D := by
  induction n generalizing s D with
  | zero => rfl
  | succ n ih =>
    have hrest : 8 * n ≤ (D.drop 8).length := by
      rw [List.length_drop]
      omega
    rw [sliceLoop, ih _ hrest, sliceLookups_group s (by omega), ← refUpd_append, List.take_append_drop]

theorem slice8Upd_tabValue (s : Word) (D : List Byte) : slice8Upd tabValue s D = refUpd tabValue s D :=
  sliceLoop_tabValue s (Nat.mul_div_le D.length 8)

/-- With a whole group left the loop takes it off the front. -/
theorem slice8Upd_of_group (T : Table) (s : Word) {D : List Byte} (h : 8 ≤ D.length) :
    slice8Upd T s D = slice8Upd T (sliceLookups T (s ^^^ le64 D 0)) (D.drop 8) := by
  rw [slice8Upd, slice8Upd, List.length_drop, show D.length / 8 = (D.length - 8) / 8 + 1 by omega, sliceLoop]

theorem slice8Upd_of_short (T : Table) (s : Word) {D : List Byte} (h : D.length < 8) :
    slice8Upd T s D = refUpd T s D := by
  rw [slice8Upd, Nat.div_eq_of_lt h, sliceLoop]

/-! ### The selection by SLICE8 (R95) -/

theorem refPath_tabValue (slice8 : Bool) (s : Word) (D : List Byte) :
    refPath slice8 tabValue s D = refUpd tabValue s D := by
  cases slice8 with
  | false => rfl
  | true => exact slice8Upd_tabValue s D

/-- Settles O28: the group and the tail of the loop over any table, and over the generated one the byte path. -/
theorem sliceBy8IsBitExact : Obligations.SliceBy8IsBitExact := by
  refine ⟨fun T s w D h hw => ?_, fun T s D => slice8Upd_of_short T s, fun _ _ _ => ⟨rfl, rfl⟩,
    fun s D => ⟨slice8Upd_tabValue s D, fun slice8 => refPath_tabValue slice8 s D, by decide +kernel⟩⟩
  rw [hw]
  exact slice8Upd_of_group T s h

end Sys2Proof.Machine

/-! CLMUL64 (42_clmul_folder.md R100): the carryless product as a product of polynomials, and its bits. -/

namespace Sys2Proof.Machine

open Polynomial

/-! ### The product as a polynomial (R100) -/

theorem getLsbD_shiftLeft_word (a : Word) (n : Nat) {k : Nat} (hk : k < 128) :
    (a.setWidth 128 <<< n).getLsbD k = (decide (n ≤ k) && a.getLsbD (k - n)) := by
  by_cases hn : n ≤ k
  · simp [hk, hn]
  · simp [hn, show k < n by omega]

/-- A word shifted left inside a lane: bit i of the word becomes bit i + n. -/
theorem lanePhi_shiftLeft_word (a : Word) {n : Nat} (hn : n < 64) :
    lanePhi (a.setWidth 128 <<< n) = phi a * X ^ (64 - n) := by
  ext k
  rw [coeff_mul_X_pow', coeff_lanePhi, coeff_phi]
  by_cases hk : k < 128
  · rw [if_pos hk, getLsbD_shiftLeft_word a n (by omega)]
    by_cases hlow : 64 - n ≤ k
    · by_cases hhigh : n ≤ 127 - k
      · simp [hlow, hhigh, show k - (64 - n) < 64 by omega, show 127 - k - n = 63 - (k - (64 - n)) by omega]
      · simp [hhigh, show ¬ k - (64 - n) < 64 by omega, bit2]
    · simp [hlow, BitVec.getLsbD_of_ge a (127 - k - n) (by omega), bit2]
  · simp [hk, show ¬ k - (64 - n) < 64 by omega]

/-- The xor of the selected lanes is the sum of their polynomials. -/
theorem lanePhi_foldl_xor (p : Nat → Bool) (f : Nat → Lane) (n : Nat) :
    lanePhi ((List.range n).foldl (fun r i => if p i then r ^^^ f i else r) 0) =
      ∑ i ∈ Finset.range n, if p i then lanePhi (f i) else 0 := by
  induction n with
  | zero => exact lanePhi_zero
  | succ n ih =>
    rw [List.range_succ, List.foldl_append, List.foldl_cons, List.foldl_nil, Finset.sum_range_succ, ← ih]
    split
    · rw [lanePhi_xor]
    · rw [add_zero]

/-- The reflection identity: reading a product as a lane costs one factor x. -/
theorem lanePhi_clmul64 (a b : Word) : lanePhi (clmul64 a b) = phi a * phi b * X := by
  rw [clmul64, lanePhi_foldl_xor, phi.eq_def b, Finset.mul_sum, Finset.sum_mul]
  refine Finset.sum_congr rfl fun i hi => ?_
  have hi : i < 64 := Finset.mem_range.mp hi
  split
  · rw [lanePhi_shiftLeft_word a hi, mul_assoc, ← pow_succ, show 63 - i + 1 = 64 - i by omega]
  · simp

theorem clmul64_comm (a b : Word) : clmul64 a b = clmul64 b a := by
  apply lanePhi_injective
  rw [lanePhi_clmul64, lanePhi_clmul64, mul_comm (phi a)]

theorem clmul64_xor_left (a b c : Word) : clmul64 (a ^^^ b) c = clmul64 a c ^^^ clmul64 b c := by
  apply lanePhi_injective
  simp only [lanePhi_xor, lanePhi_clmul64, phi_xor, add_mul]

theorem clmul64_xor_right (a b c : Word) : clmul64 c (a ^^^ b) = clmul64 c a ^^^ clmul64 c b := by
  simp only [clmul64_comm c, clmul64_xor_left]

theorem clmul64_zero (b : Word) : clmul64 0 b = 0 := by
  apply lanePhi_injective
  rw [lanePhi_clmul64, phi_zero, zero_mul, zero_mul, lanePhi_zero]

theorem phi_one : phi 1 = X ^ 63 := phi_ofBool true

theorem clmul64_one (b : Word) : clmul64 1 b = b.setWidth 128 := by
  apply lanePhi_injective
  rw [lanePhi_clmul64, phi_one, lanePhi_setWidth_word]
  ring

theorem clmul64_two (b : Word) : clmul64 2 b = b.setWidth 128 <<< 1 := by
  have htwo : phi 2 * X = X ^ 63 := (phi_mul_X_of_even rfl).trans phi_one
  apply lanePhi_injective
  rw [lanePhi_clmul64, lanePhi_shiftLeft_word b (by decide), mul_right_comm, htwo, mul_comm]

/-! ### The bits of a product (R100) -/

/-- A bit of a lane is a coefficient of its polynomial. -/
theorem bit2_getLsbD_lane (A : Lane) {k : Nat} (hk : k < 128) :
    bit2 (A.getLsbD k) = (lanePhi A).coeff (127 - k) := by
  rw [coeff_lanePhi, if_pos (by omega), show 127 - (127 - k) = k by omega]

theorem getLsbD_clmul64_last (a b : Word) : (clmul64 a b).getLsbD 127 = false := by
  apply bit2_injective
  rw [bit2_getLsbD_lane _ (by decide), lanePhi_clmul64]
  exact coeff_mul_X_zero _

/-- Squaring over GF(2) doubles every exponent. -/
theorem coeff_phi_sq (a : Word) (n : Nat) :
    (phi a * phi a).coeff n = if 2 ∣ n then (phi a).coeff (n / 2) else 0 := by
  rw [← sq, ← ZMod.expand_card, coeff_expand two_pos]

theorem getLsbD_clmul64_self_even (a : Word) (k : Nat) : (clmul64 a a).getLsbD (2 * k) = a.getLsbD k := by
  by_cases hk : k < 64
  · apply bit2_injective
    rw [bit2_getLsbD_lane _ (by omega), lanePhi_clmul64, show 127 - 2 * k = 2 * (63 - k) + 1 by omega, coeff_mul_X,
      coeff_phi_sq, if_pos (dvd_mul_right _ _), Nat.mul_div_cancel_left _ two_pos, coeff_phi, if_pos (by omega),
      show 63 - (63 - k) = k by omega]
  · rw [BitVec.getLsbD_of_ge _ _ (by omega), BitVec.getLsbD_of_ge _ _ (by omega)]

theorem getLsbD_clmul64_self_odd (a : Word) (k : Nat) : (clmul64 a a).getLsbD (2 * k + 1) = false := by
  rcases lt_trichotomy k 63 with hk | rfl | hk
  · apply bit2_injective
    rw [bit2_getLsbD_lane _ (by omega), lanePhi_clmul64, show 127 - (2 * k + 1) = 125 - 2 * k + 1 by omega,
      coeff_mul_X, coeff_phi_sq, if_neg (by omega)]
    rfl
  · exact getLsbD_clmul64_last a a
  · exact BitVec.getLsbD_of_ge _ _ (by omega)

/-- A bit of the xor of the selected lanes, counted modulo 2. -/
theorem bit2_getLsbD_foldl_xor (p : Nat → Bool) (f : Nat → Lane) (k n : Nat) :
    bit2 (((List.range n).foldl (fun r i => if p i then r ^^^ f i else r) 0).getLsbD k) =
      ∑ i ∈ Finset.range n, bit2 (p i && (f i).getLsbD k) := by
  induction n with
  | zero => exact congrArg bit2 BitVec.getLsbD_zero
  | succ n ih =>
    rw [List.range_succ, List.foldl_append, List.foldl_cons, List.foldl_nil, Finset.sum_range_succ, ← ih]
    cases p n with
    | false => exact (add_zero _).symm
    | true => exact (congrArg bit2 BitVec.getLsbD_xor).trans (bit2_xor _ _)

/-- The xor of `n` bits, counted modulo 2. -/
theorem bit2_foldl_xor (f : Nat → Bool) (n : Nat) :
    bit2 ((List.range n).foldl (fun r i => r ^^ f i) false) = ∑ i ∈ Finset.range n, bit2 (f i) := by
  induction n with
  | zero => rfl
  | succ n ih =>
    rw [List.range_succ, List.foldl_append, List.foldl_cons, List.foldl_nil, Finset.sum_range_succ, ← ih, bit2_xor]

/-- What the shift by `i` brings to bit `k` of a product: `b[i] and a[k-i]`. -/
def clmulTerm (a b : Word) (k i : Nat) : Bool := b.getLsbD i && (decide (i ≤ k) && a.getLsbD (k - i))

theorem bit2_getLsbD_clmul64 (a b : Word) {k : Nat} (hk : k < 128) :
    bit2 ((clmul64 a b).getLsbD k) = ∑ i ∈ Finset.range 64, bit2 (clmulTerm a b k i) := by
  rw [clmul64, bit2_getLsbD_foldl_xor]
  simp only [getLsbD_shiftLeft_word a _ hk, clmulTerm]

/-- Terms from index 64 on, and terms above k, are absent: the sum may end at either bound. -/
theorem sum_clmulTerm (a b : Word) {k : Nat} (hk : k < 128) :
    ∑ i ∈ Finset.range 64, bit2 (clmulTerm a b k i) = ∑ i ∈ Finset.range (k + 1), bit2 (clmulTerm a b k i) := by
  have hword : ∀ i ≥ 64, bit2 (clmulTerm a b k i) = 0 := fun i hi => by
    rw [clmulTerm, BitVec.getLsbD_of_ge b i hi]
    rfl
  have hindex : ∀ i ≥ k + 1, bit2 (clmulTerm a b k i) = 0 := fun i hi => by
    rw [clmulTerm, decide_eq_false (by omega), Bool.false_and, Bool.and_false]
    rfl
  rw [← Finset.eventually_constant_sum hword (show 64 ≤ 128 by decide), Finset.eventually_constant_sum hindex hk]

theorem getLsbD_clmul64 (a b : Word) {k : Nat} (hk : k < 128) : (clmul64 a b).getLsbD k =
    (List.range (k + 1)).foldl (fun r i => r ^^ (a.getLsbD i && b.getLsbD (k - i))) false := by
  apply bit2_injective
  rw [bit2_getLsbD_clmul64 a b hk, sum_clmulTerm a b hk, bit2_foldl_xor, ← Finset.sum_flip]
  refine Finset.sum_congr rfl fun i hi => congrArg bit2 ?_
  have hi : i ≤ k := Nat.lt_succ_iff.mp (Finset.mem_range.mp hi)
  rw [clmulTerm, decide_eq_true (Nat.sub_le k i), Nat.sub_sub_self hi, Bool.true_and, Bool.and_comm]

/-- Settles O29: the bits from the definition, the rest from the product of the polynomials. -/
theorem clmulIsPolynomialProduct : Obligations.ClmulIsPolynomialProduct :=
  ⟨fun a b _ => getLsbD_clmul64 a b, clmul64_comm, fun a b c => ⟨clmul64_xor_left a b c, clmul64_xor_right a b c⟩,
    fun b => ⟨clmul64_zero b, clmul64_one b, clmul64_two b⟩,
    fun a k => ⟨getLsbD_clmul64_self_even a k, getLsbD_clmul64_self_odd a k⟩, getLsbD_clmul64_last, lanePhi_clmul64,
    by decide +kernel, by decide +kernel, by decide +kernel, by decide +kernel⟩

end Sys2Proof.Machine

/-! FOLD modulo P (42_clmul_folder.md): the constants (R102), the fold step (R103) and the final reduction (R104), whose
Barrett quotient is exact. -/

namespace Sys2Proof.Machine

open Polynomial

/-! ### The constants (R102) -/

theorem phi_bitSteps {w : Word} {e : Nat} (n : Nat) (h : phi w = X ^ e %ₘ polyP) :
    phi (bitSteps n w) = X ^ (e + n) %ₘ polyP := by
  rw [phi_eq_mod_iff] at h ⊢
  rw [red_bitSteps, h, ← map_pow, ← map_mul, pow_add]

/-- K(63), where the powers below P begin. -/
theorem phi_one_eq_mod : phi 1 = X ^ 63 %ₘ polyP := by
  rw [phi_eq_mod_iff, phi_one]

theorem phi_POLY_R : phi POLY_R = X ^ 64 %ₘ polyP := by
  rw [phi_eq_mod_iff, red_X_pow]

theorem phi_K127 : phi K127 = X ^ 127 %ₘ polyP := by
  rw [show K127 = bitSteps 64 1 by decide +kernel]
  exact phi_bitSteps 64 phi_one_eq_mod

theorem phi_K191 : phi K191 = X ^ 191 %ₘ polyP := by
  rw [show K191 = bitSteps 64 K127 by decide +kernel]
  exact phi_bitSteps 64 phi_K127

/-- KHI_B is KLO_B advanced by one word. -/
theorem KHI_B_eq_bitSteps (nl : NLanes) : KHI_B nl = bitSteps 64 (KLO_B nl) := by
  cases nl <;> decide +kernel

/-- Doubling the block advances KLO_B by the old block. -/
theorem phi_KLO_B (nl : NLanes) : phi (KLO_B nl) = X ^ (8 * nl.foldBlk - 1) %ₘ polyP := by
  have htwo : phi (KLO_B .two) = X ^ 255 %ₘ polyP := by
    rw [show KLO_B .two = bitSteps 128 (KLO_B .one) by decide +kernel]
    exact phi_bitSteps 128 phi_K127
  have hfour : phi (KLO_B .four) = X ^ 511 %ₘ polyP := by
    rw [show KLO_B .four = bitSteps 256 (KLO_B .two) by decide +kernel]
    exact phi_bitSteps 256 htwo
  cases nl with
  | one => exact phi_K127
  | two => exact htwo
  | four => exact hfour
  | eight =>
    rw [show KLO_B .eight = bitSteps 512 (KLO_B .four) by decide +kernel]
    exact phi_bitSteps 512 hfour

theorem foldBlk_pos (nl : NLanes) : 0 < nl.foldBlk := by
  cases nl <;> decide

theorem phi_KHI_B (nl : NLanes) : phi (KHI_B nl) = X ^ (8 * nl.foldBlk + 63) %ₘ polyP := by
  have hpos := foldBlk_pos nl
  have hexp : 8 * nl.foldBlk + 63 = 8 * nl.foldBlk - 1 + 64 := by omega
  rw [KHI_B_eq_bitSteps, hexp]
  exact phi_bitSteps 64 (phi_KLO_B nl)

/-! ### Products split at x^64, and Barrett's quotient (R104) -/

/-- A lane whose bit 127 is clear loses nothing when it is shifted left. -/
theorem lanePhi_shiftLeft_one_mul_X {A : Lane} (h : A.getLsbD 127 = false) : lanePhi (A <<< 1) * X = lanePhi A := by
  ext n
  cases n with
  | zero =>
    rw [coeff_mul_X_zero, ← bit2_getLsbD_lane A (k := 127) (by decide), h]
    rfl
  | succ n =>
    rw [coeff_mul_X, coeff_lanePhi, coeff_lanePhi]
    by_cases hn : n + 1 < 128
    · simp [hn, show n < 128 by omega, show ¬ 127 - n = 0 by omega, BitVec.getLsbD_eq_getElem,
        show 127 - n < 128 by omega, show 126 - n < 128 by omega, show 127 - n - 1 = 127 - (n + 1) by omega]
    · simp [hn, show 127 - n = 0 by omega, bit2]

/-- The part of a product of two words from x^64 up, as REDUCE128 reads it off CLMUL64. -/
def productHigh (a b : Word) : Word := laneLow (clmul64 a b) <<< 1

/-- The part of a product of two words below x^64, as REDUCE128 reads it off CLMUL64. -/
def productLow (a b : Word) : Word := (clmul64 a b).extractLsb' 63 64

theorem laneLow_clmul64_shiftLeft (a b : Word) : laneLow (clmul64 a b <<< 1) = productHigh a b := by
  apply BitVec.eq_of_getLsbD_eq
  intro i hi
  simp [productHigh, laneLow, hi, BitVec.getLsbD_eq_getElem, show i < 128 by omega, show i - 1 < 128 by omega]

theorem laneHigh_clmul64_shiftLeft (a b : Word) : laneHigh (clmul64 a b <<< 1) = productLow a b := by
  apply BitVec.eq_of_getLsbD_eq
  intro i hi
  simp [productLow, laneHigh, hi, BitVec.getLsbD_eq_getElem, show 64 + i < 128 by omega, show 63 + i < 128 by omega,
    show 64 + i - 1 = 63 + i by omega]

theorem phi_mul_phi (a b : Word) : phi a * phi b = phi (productHigh a b) * X ^ 64 + phi (productLow a b) := by
  apply mul_right_cancel₀ (X_ne_zero (R := ZMod 2))
  rw [← lanePhi_clmul64, ← lanePhi_shiftLeft_one_mul_X (getLsbD_clmul64_last a b), lanePhi_halves,
    laneLow_clmul64_shiftLeft, laneHigh_clmul64_shiftLeft]

/-- What x^64 + MU_R misses of x^128: a remainder, having degree below 64. -/
theorem polyP_mul_quotient : polyP * (X ^ 64 + phi MU_R) = X ^ 128 - phi (productLow POLY_R MU_R) := by
  have hprod := phi_mul_phi POLY_R MU_R
  rw [show productHigh POLY_R MU_R = POLY_R ^^^ MU_R by decide +kernel, phi_xor] at hprod
  rw [polyP_eq, sub_eq_add_two]
  linear_combination hprod + X ^ 64 * add_self_two (phi POLY_R + phi MU_R)

/-- MU_R is Barrett's quotient: floor(x^128 / P) without its leading term. -/
theorem X_pow_add_phi_MU_R : X ^ 64 + phi MU_R = X ^ 128 /ₘ polyP := by
  have hdegree : (phi (productLow POLY_R MU_R)).degree < polyP.degree := by
    rw [degree_polyP]
    exact degree_phi _
  refine (div_modByMonic_unique _ _ polyP_monic ⟨?_, hdegree⟩).1.symm
  rw [polyP_mul_quotient, add_sub_cancel]

/-- Settles O31: the powers of x by BITSTEPs from K(63), the quotient by its remainder, the values by definition. -/
theorem foldConstantsAreReflectedPowers : Obligations.FoldConstantsAreReflectedPowers :=
  ⟨phi_K127, phi_K191, fun nl => ⟨phi_KLO_B nl, phi_KHI_B nl⟩, X_pow_add_phi_MU_R, polyP_eq.symm, phi_one_eq_mod,
    phi_POLY_R, by decide +kernel, rfl, rfl, rfl, rfl, rfl, rfl⟩

/-! ### FOLD128 (R103) -/

theorem lanePhi_fold128 (A : Lane) (khi klo : Word) :
    lanePhi (fold128 A khi klo) = (phi (laneLow A) * phi khi + phi (laneHigh A) * phi klo) * X := by
  rw [fold128, lanePhi_xor, lanePhi_clmul64, lanePhi_clmul64, add_mul]

/-- The two exponents differ by 64, as the weights of the halves do, and the product brings the missing x. -/
theorem red_fold128 (A : Lane) {khi klo : Word} {t : Nat} (ht : 1 ≤ t) (hhi : phi khi = X ^ (t + 63) %ₘ polyP)
    (hlo : phi klo = X ^ (t - 1) %ₘ polyP) :
    red (lanePhi (fold128 A khi klo)) = red (lanePhi A) * red X ^ t := by
  obtain ⟨n, rfl⟩ := Nat.exists_eq_add_of_le' ht
  rw [phi_eq_mod_iff] at hhi hlo
  rw [lanePhi_fold128, lanePhi_halves]
  simp only [map_mul, map_add, map_pow, hhi, hlo, Nat.add_sub_cancel]
  ring

theorem laneLow_xor (A B : Lane) : laneLow (A ^^^ B) = laneLow A ^^^ laneLow B := BitVec.extractLsb'_xor

theorem laneHigh_xor (A B : Lane) : laneHigh (A ^^^ B) = laneHigh A ^^^ laneHigh B := BitVec.extractLsb'_xor

theorem fold128_xor (A B : Lane) (khi klo : Word) :
    fold128 (A ^^^ B) khi klo = fold128 A khi klo ^^^ fold128 B khi klo := by
  apply lanePhi_injective
  simp only [lanePhi_xor, lanePhi_fold128, laneLow_xor, laneHigh_xor, phi_xor]
  ring

theorem fold128_zero (khi klo : Word) : fold128 0 khi klo = 0 := by
  have h : fold128 0 khi klo = clmul64 0 khi ^^^ clmul64 0 klo := rfl
  rw [h, clmul64_zero, clmul64_zero]
  exact BitVec.xor_self

/-- Settles O32: the shift in the quotient ring, and linearity from that of the product. -/
theorem foldStepShifts : Obligations.FoldStepShifts := by
  refine ⟨fun A khi klo t ht hhi hlo => ?_, fold128_xor, fun _ _ _ => rfl, fold128_zero, by decide +kernel⟩
  rw [mod_eq_mod_iff, red_fold128 A ht hhi hlo, map_mul, map_pow]

/-! ### REDUCE128 (R104) -/

/-- Step 1 multiplies by x^64. -/
theorem red_reduceB (A : Lane) : red (lanePhi (reduceB A)) = red (lanePhi A) * red X ^ 64 := by
  rw [reduceB, lanePhi_xor, lanePhi_clmul64, lanePhi_setWidth_word, lanePhi_halves]
  simp only [map_mul, map_add, map_pow, (phi_eq_mod_iff _ _).mp phi_K127]
  ring

theorem natDegree_mul_phi_le {p : (ZMod 2)[X]} (hp : p.natDegree ≤ 64) (w : Word) : (p * phi w).natDegree ≤ 127 :=
  natDegree_mul_le_of_le hp (Nat.le_of_lt_succ (natDegree_phi w))

theorem natDegree_polyP : polyP.natDegree = 64 := natDegree_eq_of_degree_eq_some degree_polyP

theorem phi_reduceQ (h : Word) : phi (reduceQ h) = phi h + phi (productHigh h MU_R) := by
  rw [reduceQ, phi_xor, productHigh]

/-- Barrett's argument for step 2: what the estimate adds to `h` is what multiplying it by P adds above x^64, because
their difference times x^128 has degree below 128. -/
theorem productHigh_reduceQ (h : Word) : phi (productHigh h MU_R) + phi (productHigh (reduceQ h) POLY_R) = 0 := by
  have hdiff : (phi (productHigh h MU_R) + phi (productHigh (reduceQ h) POLY_R)) * X ^ 128 =
      -(phi h * phi (productLow POLY_R MU_R) + X ^ 64 * phi (productLow (reduceQ h) POLY_R) +
        polyP * phi (productLow h MU_R)) := by
    linear_combination phi h * polyP_mul_quotient - polyP * phi_mul_phi h MU_R -
      X ^ 64 * phi_mul_phi (reduceQ h) POLY_R + X ^ 64 * phi POLY_R * phi_reduceQ h -
      X ^ 64 * (phi h + phi (productHigh h MU_R)) * polyP_eq
  have hdegree := (natDegree_add_le_of_degree_le (natDegree_add_le_of_degree_le
    (natDegree_mul_phi_le (natDegree_phi h).le (productLow POLY_R MU_R))
    (natDegree_mul_phi_le (natDegree_X_pow (R := ZMod 2) 64).le (productLow (reduceQ h) POLY_R)))
    (natDegree_mul_phi_le natDegree_polyP.le (productLow h MU_R)))
  rw [← natDegree_neg, ← hdiff] at hdegree
  by_contra hne
  rw [natDegree_mul_X_pow _ hne] at hdegree
  omega

/-- Steps 2 and 3: the quotient times P takes all of `h` above x^64 and leaves the remainder. -/
theorem red_productLow_reduceQ (h : Word) :
    red (phi (productLow (reduceQ h) POLY_R)) = red (phi h) * red X ^ 64 := by
  have hqP : phi (productLow (reduceQ h) POLY_R) = phi h * X ^ 64 + phi (reduceQ h) * polyP := by
    rw [add_comm, ← sub_eq_add_two]
    linear_combination -phi_mul_phi (reduceQ h) POLY_R - phi (reduceQ h) * polyP_eq -
      X ^ 64 * (phi_reduceQ h + productHigh_reduceQ h)
  rw [hqP, map_add, map_mul, map_mul, map_pow, AdjoinRoot.mk_self, mul_zero, add_zero]

theorem phi_reduce128_eq (A : Lane) : phi (reduce128 A) =
    phi (laneHigh (reduceB A)) + phi (productLow (reduceQ (laneLow (reduceB A))) POLY_R) := by
  rw [reduce128, phi_xor, productLow]

theorem red_reduce128 (A : Lane) : red (phi (reduce128 A)) = red (lanePhi A) * red X ^ 64 := by
  rw [phi_reduce128_eq, map_add, red_productLow_reduceQ, ← red_reduceB, lanePhi_halves (reduceB A), map_add, map_mul,
    map_pow, add_comm]

theorem byteOf_laneLow (A : Lane) {k : Nat} (hk : k < 8) : byteOf (laneLow A) k = A.extractLsb' (8 * k) 8 := by
  rw [byteOf, laneLow, BitVec.extractLsb'_extractLsb'_of_le (by omega)]

theorem byteOf_laneHigh (A : Lane) {k : Nat} (hk : k < 8) :
    byteOf (laneHigh A) k = A.extractLsb' (8 * (8 + k)) 8 := by
  apply BitVec.eq_of_getLsbD_eq
  intro i hi
  rw [getLsbD_byteOf _ _ hi, laneHigh, BitVec.getLsbD_extractLsb', BitVec.getLsbD_extractLsb',
    decide_eq_true hi, decide_eq_true (by omega), show 64 + (8 * k + i) = 8 * (8 + k) + i by omega]

theorem laneBytes_eq_append (A : Lane) : laneBytes A = wordBytes (laneLow A) ++ wordBytes (laneHigh A) := by
  rw [laneBytes, show 16 = 8 + 8 from rfl, List.range_add, List.map_append, List.map_map]
  congr 1
  · exact List.map_congr_left fun k hk => (byteOf_laneLow A (List.mem_range.mp hk)).symm
  · exact List.map_congr_left fun k hk => (byteOf_laneHigh A (List.mem_range.mp hk)).symm

theorem delta_laneBytes (A : Lane) : delta (laneBytes A) = lanePhi A := by
  rw [laneBytes_eq_append, delta_append, delta_wordBytes, delta_wordBytes, length_wordBytes, lanePhi_halves]

theorem reduce128_xor (A B : Lane) : reduce128 (A ^^^ B) = reduce128 A ^^^ reduce128 B := by
  apply eq_of_red
  simp only [phi_xor, map_add, red_reduce128, lanePhi_xor, add_mul]

theorem phi_reduce128 (A : Lane) : phi (reduce128 A) = (lanePhi A * X ^ 64) %ₘ polyP := by
  rw [phi_eq_mod_iff, red_reduce128, map_mul, map_pow]

theorem reduce128_eq_refUpd (A : Lane) : reduce128 A = refUpd tabValue 0 (laneBytes A) := by
  apply eq_of_red
  rw [red_reduce128, red_refUpd, delta_laneBytes, phi_zero, map_zero, zero_mul, zero_add]

/-- Settles O33: the steps by definition, and from the remainder its linearity and the sixteen bytes of REFUPD. -/
theorem reduceIsPolynomialRemainder : Obligations.ReduceIsPolynomialRemainder := by
  refine ⟨fun A B U V BH Q hB hBH hU hQ hV => ?_, reduce128_xor,
    fun A => ⟨phi_reduce128 A, reduce128_eq_refUpd A⟩, by decide +kernel, by decide +kernel⟩
  subst hV hQ hU hBH hB
  rfl

end Sys2Proof.Machine

/-! FOLDUPD (42_clmul_folder.md): its five steps (R105, R110), the polynomial that the lanes hold, and the equality with
the reference path (R108). -/

namespace Sys2Proof.Machine

open Polynomial

/-! ### The steps of FOLDUPD (R105, R110) -/

theorem foldUpd_of_short {nl : NLanes} (slice8 : Bool) (T : Table) (s : Word) {D : List Byte}
    (h : D.length < nl.foldBlk) : foldUpd nl slice8 T s D = refPath slice8 T s D := if_pos h

theorem foldUpd_of_block {nl : NLanes} (slice8 : Bool) (T : Table) (s : Word) {D : List Byte}
    (h : nl.foldBlk ≤ D.length) : foldUpd nl slice8 T s D =
      refPath slice8 T (reduce128 (combineLanes (foldBlocks nl s D (D.length / nl.foldBlk))))
        (D.drop (D.length / nl.foldBlk * nl.foldBlk)) := if_neg h.not_gt

/-- Each block after the first is one more iteration of step 3. -/
theorem foldBlocks_succ (nl : NLanes) (s : Word) (D : List Byte) {m : Nat} (hm : 1 ≤ m) :
    foldBlocks nl s D (m + 1) = foldBlock nl (foldBlocks nl s D m) (blockLanes nl D (m * nl.foldBlk)) := by
  obtain ⟨n, rfl⟩ := Nat.exists_eq_add_of_le' hm
  simp only [foldBlocks, Nat.add_sub_cancel, List.range_succ, List.foldl_append, List.foldl_cons, List.foldl_nil]

theorem foldBlocks_one (nl : NLanes) (s : Word) (D : List Byte) :
    foldBlocks nl s D 1 = enterState s (blockLanes nl D 0) := rfl

theorem length_blockLanes (nl : NLanes) (D : List Byte) (off : Nat) : (blockLanes nl D off).length = nl.count := by
  rw [blockLanes, List.length_map, List.length_range]

theorem getElem?_blockLanes (nl : NLanes) (D : List Byte) (off : Nat) {j : Nat} (hj : j < nl.count) :
    (blockLanes nl D off)[j]? = some (le128 D (off + 16 * j)) := by
  rw [blockLanes, List.getElem?_map, List.getElem?_range hj, Option.map_some]

/-- The state enters lane 0 and no other. -/
theorem getElem?_enterState (s : Word) {lanes : List Lane} {j : Nat} {a : Lane} (h : lanes[j]? = some a) :
    (enterState s lanes)[j]? = some (a ^^^ if j = 0 then s.setWidth 128 else 0) := by
  cases lanes with
  | nil => cases h
  | cons b rest =>
    cases j with
    | zero =>
      cases h
      rfl
    | succ j => exact h.trans (congrArg some BitVec.xor_zero.symm)

theorem getElem?_foldBlock (nl : NLanes) {acc lanes : List Lane} {j : Nat} {a d : Lane} (ha : acc[j]? = some a)
    (hd : lanes[j]? = some d) :
    (foldBlock nl acc lanes)[j]? = some (fold128 a (KHI_B nl) (KLO_B nl) ^^^ d) := by
  rw [foldBlock, List.getElem?_zipWith, ha, hd]

theorem combineLanes_append_singleton (a : Lane) (acc : List Lane) (c : Lane) :
    combineLanes (a :: acc ++ [c]) = fold128 (combineLanes (a :: acc)) K191 K127 ^^^ c := List.foldl_append

/-- Settles O34: each step of the folder by the lemma on its function. -/
theorem folderFollowsItsSteps : Obligations.FolderFollowsItsSteps := by
  refine ⟨fun nl slice8 T s D => ⟨foldUpd_of_short slice8 T s, fun m hm hpos => ?_⟩, fun nl s D j hj => ?_,
    fun nl s D m j a hm hj ha => ?_, fun _ => rfl, fun acc a c => combineLanes_append_singleton a acc c⟩
  · subst hm
    exact foldUpd_of_block slice8 T s (Nat.div_pos_iff.mp hpos).2
  · rw [foldBlocks_one, getElem?_enterState s (getElem?_blockLanes nl D 0 hj), Nat.zero_add]
  · rw [foldBlocks_succ nl s D hm]
    exact getElem?_foldBlock nl ha (getElem?_blockLanes nl D _ hj)

/-! ### The lanes as one polynomial (R108) -/

/-- The bytes that a list of lanes stands for. -/
def lanesBytes (lanes : List Lane) : List Byte := lanes.flatMap laneBytes

theorem length_lanesBytes (lanes : List Lane) : (lanesBytes lanes).length = 16 * lanes.length := by
  simp [lanesBytes, laneBytes, List.length_flatMap, mul_comm]

theorem delta_lanesBytes_nil : delta (lanesBytes []) = 0 := rfl

/-- The polynomial W of R108: the first lane has the highest degrees. -/
theorem delta_lanesBytes_cons (a : Lane) (rest : List Lane) :
    delta (lanesBytes (a :: rest)) = lanePhi a * X ^ (128 * rest.length) + delta (lanesBytes rest) := by
  rw [lanesBytes, List.flatMap_cons, delta_append, delta_laneBytes, ← lanesBytes, length_lanesBytes,
    show 8 * (16 * rest.length) = 128 * rest.length by omega]

/-- Lane combining (step 4) keeps W. -/
theorem red_combineLanes (lanes : List Lane) : red (lanePhi (combineLanes lanes)) = red (delta (lanesBytes lanes)) := by
  cases lanes with
  | nil => rw [combineLanes, lanePhi_zero, delta_lanesBytes_nil]
  | cons a rest =>
    rw [combineLanes]
    induction rest generalizing a with
    | nil => simp [delta_lanesBytes_cons, delta_lanesBytes_nil]
    | cons c rest ih =>
      rw [List.foldl_cons, ih]
      simp only [delta_lanesBytes_cons, lanePhi_xor, map_add, map_mul, map_pow, List.length_cons,
        red_fold128 a (t := 128) (by decide) phi_K191 phi_K127]
      ring

/-- A block fold (step 3) multiplies W by x^(8B) and adds the block. -/
theorem red_foldBlock (nl : NLanes) {acc lanes : List Lane} (h : acc.length = lanes.length) :
    red (delta (lanesBytes (foldBlock nl acc lanes))) =
      red (delta (lanesBytes acc)) * red X ^ (8 * nl.foldBlk) + red (delta (lanesBytes lanes)) := by
  have hpos : 1 ≤ 8 * nl.foldBlk := Nat.mul_pos (by decide) (foldBlk_pos nl)
  induction acc generalizing lanes with
  | nil =>
    rw [List.eq_nil_of_length_eq_zero h.symm]
    simp [foldBlock, delta_lanesBytes_nil]
  | cons a acc ih =>
    obtain ⟨d, rest, rfl⟩ := List.exists_cons_of_length_eq_add_one h.symm
    have hrest : acc.length = rest.length := Nat.succ.inj h
    have hlen : (foldBlock nl acc rest).length = rest.length := by
      rw [foldBlock, List.length_zipWith, hrest, Nat.min_self]
    have hcons : foldBlock nl (a :: acc) (d :: rest) =
        (fold128 a (KHI_B nl) (KLO_B nl) ^^^ d) :: foldBlock nl acc rest := rfl
    simp only [hcons, delta_lanesBytes_cons, lanePhi_xor, map_add, map_mul, map_pow, ih hrest, hlen, hrest,
      red_fold128 a hpos (phi_KHI_B nl) (phi_KLO_B nl)]
    ring

theorem payBytes_add (D : List Byte) (off m n : Nat) :
    payBytes D off (m + n) = payBytes D off m ++ payBytes D (off + m) n := by
  rw [payBytes, List.take_add, List.drop_drop]
  rfl

/-- Lanes loaded one after the other hold the bytes in their order (R101). -/
theorem delta_lanesBytes_loads (D : List Byte) (n : Nat) {off : Nat} (h : off + 16 * n ≤ D.length) :
    delta (lanesBytes ((List.range n).map fun j => le128 D (off + 16 * j))) = delta (payBytes D off (16 * n)) := by
  induction n generalizing off with
  | zero => simp [payBytes, delta, delta_lanesBytes_nil]
  | succ n ih =>
    have hlanes : (List.range (n + 1)).map (fun j => le128 D (off + 16 * j)) =
        le128 D off :: (List.range n).map fun j => le128 D (off + 16 + 16 * j) := by
      rw [List.range_succ_eq_map, List.map_cons, List.map_map]
      exact congrArg _ (List.map_congr_left fun j _ => congrArg (le128 D) (by omega))
    rw [hlanes, delta_lanesBytes_cons, ih (by omega), lanePhi_le128 (by omega), List.length_map, List.length_range,
      show 16 * (n + 1) = 16 + 16 * n by omega, payBytes_add, delta_append, length_payBytes (by omega),
      show 8 * (16 * n) = 128 * n by omega]

theorem delta_lanesBytes_blockLanes (nl : NLanes) {D : List Byte} {off : Nat} (h : off + nl.foldBlk ≤ D.length) :
    delta (lanesBytes (blockLanes nl D off)) = delta (payBytes D off nl.foldBlk) :=
  delta_lanesBytes_loads D nl.count h

/-- The state in the low half of lane 0 has the weight of the first eight bytes. -/
theorem delta_lanesBytes_enterState (s : Word) {lanes : List Lane} (h : 0 < lanes.length) :
    delta (lanesBytes (enterState s lanes)) * X ^ 64 =
      delta (lanesBytes lanes) * X ^ 64 + phi s * X ^ (128 * lanes.length) := by
  obtain ⟨a, rest, rfl⟩ := List.exists_cons_of_length_pos h
  rw [enterState, delta_lanesBytes_cons, delta_lanesBytes_cons, lanePhi_xor, lanePhi_setWidth_word, List.length_cons]
  ring

/-! ### FOLDUPD equals REFUPD (R108) -/

theorem length_foldBlocks (nl : NLanes) (s : Word) (D : List Byte) {m : Nat} (hm : 1 ≤ m) :
    (foldBlocks nl s D m).length = nl.count := by
  induction m, hm using Nat.le_induction with
  | base =>
    rw [foldBlocks_one, ← length_blockLanes nl D 0]
    cases blockLanes nl D 0 <;> rfl
  | succ m hm ih =>
    rw [foldBlocks_succ nl s D hm, foldBlock, List.length_zipWith, ih, length_blockLanes, Nat.min_self]

/-- The recurrence of the byte path over one block. -/
theorem red_refUpd_payBytes (s : Word) {D : List Byte} {off n : Nat} (h : off + n ≤ D.length) :
    red (phi (refUpd tabValue s (payBytes D off n))) =
      red (phi s) * red X ^ (8 * n) + red (delta (payBytes D off n)) * red X ^ 64 := by
  rw [red_refUpd, length_payBytes h]

/-- The invariant of step 3: times x^64 the accumulators hold what the byte path makes of the blocks taken. -/
theorem red_foldBlocks (nl : NLanes) (s : Word) (D : List Byte) {m : Nat} (hm : 1 ≤ m)
    (hD : m * nl.foldBlk ≤ D.length) : red (delta (lanesBytes (foldBlocks nl s D m))) * red X ^ 64 =
      red (phi (refUpd tabValue s (D.take (m * nl.foldBlk)))) := by
  induction m, hm using Nat.le_induction with
  | base =>
    have hblock : 0 + nl.foldBlk ≤ D.length := by omega
    have hpos : 0 < nl.count := by cases nl <;> decide
    have henter := congrArg red (delta_lanesBytes_enterState s
      (Nat.lt_of_lt_of_eq hpos (length_blockLanes nl D 0).symm))
    rw [length_blockLanes, delta_lanesBytes_blockLanes nl hblock] at henter
    simp only [map_add, map_mul, map_pow] at henter
    rw [Nat.one_mul, foldBlocks_one, henter, show D.take nl.foldBlk = payBytes D 0 nl.foldBlk from rfl,
      red_refUpd_payBytes s hblock, add_comm, show 8 * nl.foldBlk = 128 * nl.count by rw [NLanes.foldBlk]; omega]
  | succ m hm ih =>
    rw [Nat.add_one_mul] at hD ⊢
    have htake : D.take (m * nl.foldBlk + nl.foldBlk) =
        D.take (m * nl.foldBlk) ++ payBytes D (m * nl.foldBlk) nl.foldBlk := List.take_add
    have hlen : (foldBlocks nl s D m).length = (blockLanes nl D (m * nl.foldBlk)).length := by
      rw [length_foldBlocks nl s D hm, length_blockLanes]
    rw [foldBlocks_succ nl s D hm, red_foldBlock nl hlen, delta_lanesBytes_blockLanes nl hD, htake, refUpd_append,
      red_refUpd_payBytes _ hD, ← ih (by omega)]
    ring

/-- Steps 2 to 4 and the reduction: the state after the full blocks. -/
theorem reduce128_foldBlocks (nl : NLanes) (s : Word) (D : List Byte) {m : Nat} (hm : 1 ≤ m)
    (hD : m * nl.foldBlk ≤ D.length) :
    reduce128 (combineLanes (foldBlocks nl s D m)) = refUpd tabValue s (D.take (m * nl.foldBlk)) := by
  apply eq_of_red
  rw [red_reduce128, red_combineLanes, red_foldBlocks nl s D hm hD]

/-- Settles O35: below one block both are REFPATH; otherwise the folder's state after the full blocks is the byte
path's, and the tail composes. -/
theorem folderEqualsReference : Obligations.FolderEqualsReference := by
  intro nl slice8 s D
  rcases Nat.lt_or_ge D.length nl.foldBlk with h | h
  · rw [foldUpd_of_short slice8 tabValue s h, refPath_tabValue]
  · rw [foldUpd_of_block slice8 tabValue s h,
      reduce128_foldBlocks nl s D (Nat.div_pos h (foldBlk_pos nl)) (Nat.div_mul_le_self _ _), refPath_tabValue,
      ← refUpd_append, List.take_append_drop]

end Sys2Proof.Machine

/-! DISP (43_dispatcher.md): the value of DISPATCH does not depend on its path (R122, R123), who writes CAP and who can
tell its value (R124), the pin after the probe (R120), and the commands PROBE and SETCAP (R120, R121). -/

namespace Sys2Proof.Machine

/-! ### DISPATCH (R122, R123) -/

/-- Over the generated table both paths are the byte path. -/
theorem dispatch_tabValue (cap : Bool) (nl : NLanes) (slice8 : Bool) (s : Word) (D : List Byte) :
    dispatch cap nl slice8 tabValue s D = refUpd tabValue s D := by
  cases cap with
  | false => exact refPath_tabValue slice8 s D
  | true => exact folderEqualsReference nl slice8 s D

/-- DISPATCH reads only the entries that TGEN generates. -/
theorem dispatch_congr {slice8 : Bool} {T T' : Table} (cap : Bool) (nl : NLanes)
    (h : ∀ k i, k < tableCount slice8 → T.entry k i = T'.entry k i) (s : Word) (D : List Byte) :
    dispatch cap nl slice8 T s D = dispatch cap nl slice8 T' s D := by
  cases cap with
  | false => exact refPath_congr h s D
  | true => exact foldUpd_congr nl h s D

/-- Over a table RAM that TGEN has built, DISPATCH is the byte path over the computed table. -/
theorem State.dispatch_of_tableBuilt {s : State} (h : s.TableBuilt) (crc : Word) (D : List Byte) :
    s.dispatch crc D = refUpd tabValue crc D := by
  have hentry : ∀ k i, k < tableCount Config.slice8 → Table.entry s.T.read k i = Table.entry tabValue k i :=
    fun k i hk => (h k i hk).trans (entry_tabValue k i).symm
  rw [State.dispatch, dispatch_congr s.CAP Config.nlanes hentry, dispatch_tabValue]

/-- `s` with another capability flag. -/
def State.withCap (b : Bool) (s : State) : State := { s with CAP := b }

theorem dispatch_withCap {s : State} (h : s.TableBuilt) (b : Bool) (crc : Word) (D : List Byte) :
    (s.withCap b).dispatch crc D = s.dispatch crc D := by
  rw [State.dispatch_of_tableBuilt h, State.dispatch_of_tableBuilt (s := s.withCap b) h]

/-- Settles O38: the selection by definition; over the generated table both selected paths are the byte path. -/
theorem dispatchIsPathIndependent : Obligations.DispatchIsPathIndependent := by
  refine ⟨fun s crc D => ⟨fun h => ?_, fun h => ?_⟩, dispatch_tabValue, fun s b crc D hinv hT => ?_⟩
  · simp [State.dispatch, dispatch, h]
  · simp [State.dispatch, dispatch, h]
  · exact ⟨State.dispatch_of_tableBuilt (hinv.built hT) crc D, dispatch_withCap (hinv.built hT) b crc D⟩

/-! ### Who writes CAP (R124) -/

/-- A command leaves CAP, or is PROBE, or is SETCAP in test mode. -/
theorem exec_writes_CAP {i : Instr} {s t : State} (h : exec i s = .next t) :
    t.CAP = s.CAP ∨ i = .probe ∧ t.CAP = s.probeBody.CAP ∨ s.TESTEN = true ∧ ∃ v, i = .setcap v ∧ t.CAP = v := by
  cases i with
  | probe =>
    cases h
    exact .inr (.inl ⟨rfl, rfl⟩)
  | setcap v =>
    rw [exec_setcap] at h
    cases h
    split
    · exact .inr (.inr ⟨‹_›, v, rfl, rfl⟩)
    · exact .inl rfl
  | nop | tgen | reset | update | sum | checksum | size | blksize | rdstate | wrstate =>
    obtain ⟨-, -, hcap, -⟩ := commandFrames _ s t h
    exact .inl (hcap nofun nofun)

theorem bootStep_CAP {s : State} (hC : s.CAPV = true) : s.bootStep.CAP = s.CAP := by
  obtain ⟨-, he⟩ | ⟨-, hC', -⟩ | ⟨-, -, he⟩ := bootStep_cases s
  · rw [he, State.tgenBody_CAP]
  · exact absurd hC (by simp [hC'])
  · rw [he]

theorem rejectFrame_CAP (e : DecodeError) (s : State) : (s.rejectFrame e).CAP = s.CAP := by
  obtain ⟨he, -⟩ | ⟨c, -, -, he⟩ := rejectFrame_cases e s <;> rw [he]
  rw [State.raiseIll_CAP]

/-- Once the capability is latched, a step that changes CAP runs a SETCAP frame in test mode. -/
theorem setcap_of_step_changes_CAP {s t : State} (hr : s.rst = false) (hC : s.CAPV = true) (h : step s = .next t)
    (hne : t.CAP ≠ s.CAP) : s.TESTEN = true ∧ s.READY = true ∧ ∃ v, decode s.cmdPort = .ok (.setcap v) ∧ t.CAP = v := by
  obtain ⟨hr', -⟩ | ⟨-, -, rfl⟩ | ⟨-, hb, i, hd, hi⟩ | ⟨-, -, e, -, rfl⟩ := step_cases h
  · exact absurd hr' (by simp [hr])
  · exact absurd (bootStep_CAP hC) hne
  · obtain he | ⟨-, he⟩ | ⟨hm, v, rfl, he⟩ := exec_writes_CAP hi
    · exact absurd he hne
    · exact absurd he (by simpa [hC] using hne)
    · exact ⟨hm, hb, v, hd, he⟩
  · exact absurd (rejectFrame_CAP e s) hne

/-- A step that latches the capability samples the pin: only the body of PROBE writes CAPV. -/
theorem step_samples {s t : State} (hr : s.rst = false) (hC : s.CAPV = false) (h : step s = .next t)
    (ht : t.CAPV = true) : t.CAP = s.capIn := by
  obtain rfl | ⟨rfl, -⟩ | ⟨c, e, rfl⟩ | ⟨u, hu, e, val, dout, rfl⟩ := step_effect hr h
  · exact absurd ht (by simp [hC])
  · exact bootStep_samples hC ht
  · exact absurd ht (by simp [hC])
  · cases hu with
    | probe => simp [hC]
    | nothing | tgen | setcap | writeS | absorb => exact absurd ht (by simp [hC])

/-! ### Who can tell the value of CAP (R124) -/

/-- The fields of a response that do not hold CAP: all but bit 3 of STAT. -/
def Response.withoutCap (r : Response) : Word × BitVec 8 × List Byte := (r.val, r.stat &&& 0xF7, r.dout)

/-- `s` and `t` have the same CRC state and the same responses but for the CAP bit of STAT. -/
def State.SameButCap (s t : State) : Prop :=
  t.S = s.S ∧ t.respPort.map Response.withoutCap = s.respPort.map Response.withoutCap

/-- STAT without its bit 3: CAP is there and nowhere else (10_state.md R27). -/
theorem stat_and_mask (s : State) : s.stat &&& 0xF7 =
    s.CAUSE ++ BitVec.ofBool s.ILL ++ BitVec.ofBool s.TESTEN ++ 0#1 ++
      BitVec.ofBool s.CAPV ++ BitVec.ofBool s.TV ++ BitVec.ofBool s.READY := by
  have hmask : (0xF7 : BitVec 8) = 3#2 ++ 1#1 ++ 1#1 ++ 0#1 ++ 1#1 ++ 1#1 ++ 1#1 := by decide
  have hones (x : BitVec 2) : x &&& 3#2 = x := BitVec.and_allOnes (x := x)
  have hone (x : BitVec 1) : x &&& 1#1 = x := BitVec.and_allOnes (x := x)
  rw [hmask]
  change (_ ++ _ ++ _ ++ _ ++ _ ++ _ ++ _ : BitVec (2 + 1 + 1 + 1 + 1 + 1 + 1)) &&& _ = _
  simp only [BitVec.and_append, hones, hone, BitVec.and_zero]

theorem stat_withCap (b : Bool) (s : State) : (s.withCap b).stat &&& 0xF7 = s.stat &&& 0xF7 :=
  (stat_and_mask (s.withCap b)).trans (stat_and_mask s).symm

/-- A frame that completes with the same answer from two states that differ in CAP, and in scratch, leaves them so. -/
theorem sameButCap_complete (u u' : State) (hS : u'.S = u.S) (hp : u'.respPort = u.respPort)
    (hstat : u'.stat &&& 0xF7 = u.stat &&& 0xF7) (e : Extent) (val : Word) (dout : List Byte) :
    (u.complete e val dout).SameButCap (u'.complete e val dout) := by
  refine ⟨hS, ?_⟩
  simp only [State.complete_respPort, hp, List.map_append, List.map_singleton, Response.withoutCap, hstat]

theorem sameButCap_complete_withCap (b : Bool) (u : State) (e : Extent) (val : Word) (dout : List Byte) :
    (u.complete e val dout).SameButCap ((u.withCap b).complete e val dout) :=
  sameButCap_complete u (u.withCap b) rfl rfl (stat_withCap b u) e val dout

/-- A command but PROBE and SETCAP, run with CAP at the one or the other value, ends in states that are the same but
for CAP: only DISPATCH reads it, and its value does not depend on it. -/
theorem exec_withCap {i : Instr} {s t : State} (b : Bool) (hT : s.TableBuilt) (hP : i ≠ .probe)
    (hV : ∀ v, i ≠ .setcap v) (h : exec i s = .next t) :
    ∃ t', exec i (s.withCap b) = .next t' ∧ t.SameButCap t' := by
  cases i with
  | probe => exact absurd rfl hP
  | setcap v => exact absurd rfl (hV v)
  | nop | tgen | reset | sum | size | blksize | rdstate | wrstate =>
    cases h
    refine ⟨_, ?_, sameButCap_complete_withCap b _ _ _ _⟩
    rfl
  | update len =>
    rw [exec_update] at h
    cases h
    refine ⟨if len ≤ s.dataPort.length then (s.withCap b).updateBody len else s.withCap b, rfl, ?_⟩
    split
    · rw [State.updateBody, State.updateBody]
      refine sameButCap_complete _ _ ?_ ?_ ?_ _ _ _
      · exact dispatch_withCap hT b _ _
      · rfl
      · exact stat_withCap b s
    · exact ⟨rfl, rfl⟩
  | checksum len =>
    rw [exec_checksum] at h
    cases h
    refine ⟨if len ≤ s.dataPort.length then (s.withCap b).checksumBody len else s.withCap b, rfl, ?_⟩
    split
    · rw [State.checksumBody, State.checksumBody, dispatch_withCap hT]
      exact sameButCap_complete (s.scratchAcc len) ((s.withCap b).scratchAcc len) rfl rfl (stat_withCap b s) _ _ _
    · exact ⟨rfl, rfl⟩

/-- Settles O39: what a step keeps, who writes CAP, and that DISPATCH does not tell which path it took. -/
theorem capIsStable : Obligations.CapIsStable := by
  refine ⟨fun s t hr hC hT h => ?_, fun s t => setcap_of_step_changes_CAP, fun s t => step_samples,
    fun i s b hinv hT hP hV => ?_⟩
  · obtain ⟨hC', hkeep⟩ := (kept_step hr h).cap hC
    exact ⟨hkeep hT, hC'⟩
  · obtain ⟨t, ht⟩ := exec_next i s
    obtain ⟨t', ht', hsame⟩ := exec_withCap b (hinv.built hT) hP hV ht
    exact ⟨t, t', ht, ht', hsame⟩

/-! ### PROBE and the pin (R120) -/

theorem probeBody_of_CAPV_false {s : State} (h : s.CAPV = false) :
    s.probeBody = { s with CAP := s.capIn, CAPV := true } := by
  rw [State.probeBody, h]
  rfl

/-- A later PROBE writes nothing. -/
theorem probeBody_of_CAPV_true {s : State} (h : s.CAPV = true) : s.probeBody = s := by
  rw [State.probeBody, h, if_pos rfl, ← h]

theorem zextFlag_eq (b : Bool) : zextFlag b = if b then 1 else 0 := by
  cases b <;> rfl

/-- Settles O36: PROBE completes its frame after its body, which latches the pin when CAPV = 0 and else changes
nothing. -/
theorem probeLatchesOracleOnce : Obligations.ProbeLatchesOracleOnce := by
  refine ⟨fun s hC => ?_, fun s hC => ?_, fieldFault_of_F0 (by decide), wordsRun_encode (i := .probe) rfl⟩
  · rw [exec_probe, probeBody_of_CAPV_false hC, zextFlag_eq]
    rfl
  · rw [exec_probe, probeBody_of_CAPV_true hC, zextFlag_eq]
    rfl

/-- `s` with another level of the pin `cap_in`. -/
def State.withCapIn (b : Bool) (s : State) : State := { s with capIn := b }

theorem bootStep_withCapIn (b : Bool) {s : State} (hC : s.CAPV = true) :
    (s.withCapIn b).bootStep = s.bootStep.withCapIn b := by
  obtain ⟨hT, he⟩ | ⟨-, hC', -⟩ | ⟨hT, -, he⟩ := bootStep_cases s
  · rw [he, bootStep_tgen (s := s.withCapIn b) hT]
    rfl
  · exact absurd hC (by simp [hC'])
  · rw [he, bootStep_ready (s := s.withCapIn b) hT hC]
    rfl

theorem rejectFrame_withCapIn (b : Bool) (e : DecodeError) (s : State) :
    (s.withCapIn b).rejectFrame e = (s.rejectFrame e).withCapIn b := by
  cases e with
  | incomplete => rfl
  | illOpc | illField =>
    rw [State.rejectFrame, State.rejectFrame, State.whenSupplied, State.whenSupplied,
      apply_ite (State.withCapIn b)]
    rfl

/-- Once the capability is latched no command reads the pin. -/
theorem exec_withCapIn {i : Instr} {s t : State} (b : Bool) (hC : s.CAPV = true) (h : exec i s = .next t) :
    exec i (s.withCapIn b) = .next (t.withCapIn b) := by
  cases i with
  | nop | tgen | reset | sum | size | blksize | rdstate | wrstate =>
    cases h
    rfl
  | probe =>
    rw [exec_probe, probeBody_of_CAPV_true hC] at h
    cases h
    rw [exec_probe, probeBody_of_CAPV_true (s := s.withCapIn b) hC]
    rfl
  | setcap | update | checksum =>
    cases h
    rw [apply_ite (State.withCapIn b)]
    rfl

/-- Settles O40: neither boot after the probe, nor a command, nor a rejection reads the pin. -/
theorem capInIgnoredAfterProbe : Obligations.CapInIgnoredAfterProbe := by
  intro s t b hr hC h
  change step (s.withCapIn b) = .next (t.withCapIn b)
  obtain ⟨hr', -⟩ | ⟨-, hb, rfl⟩ | ⟨-, hb, i, hd, hi⟩ | ⟨-, hb, e, hd, rfl⟩ := step_cases h
  · exact absurd hr' (by simp [hr])
  · rw [step_of_boot (s := s.withCapIn b) hr hb, bootStep_withCapIn b hC]
  · rw [step_of_decode (s := s.withCapIn b) hr hb hd, exec_withCapIn b hC hi]
  · rw [step_of_reject (s := s.withCapIn b) hr hb hd, rejectFrame_withCapIn]

/-! ### SETCAP (R121) -/

/-- The frame of SETCAP is its command word, and a non-zero field in it raises Ill(2). -/
theorem setcap_fieldFault {s : State} {cw : Word} {rest : List Word} (ha : s.Accepting) (hc : s.cmdPort = cw :: rest)
    (ho : opcField cw = 0x03) (hz : argHighField cw ≠ 0 ∨ lenField cw ≠ 0) : step s = .next (s.faulted 2 1 0) := by
  have hx : frameExtent cw = .word := by
    rw [frameExtent, ho]
    rfl
  have hd : decode s.cmdPort = .error .illField := by
    rw [hc, decode_cons, ho]
    exact if_neg (not_and_or.mpr hz)
  have hs : s.supplied (frameExtent cw) = true := by
    rw [hx]
    exact (supplied_iff s .word).mpr ⟨by simp [hc, Extent.word], Nat.zero_le _⟩
  rw [step_of_illField ha hc hs hd, hx]
  rfl

/-- Settles O37: the two branches of SETCAP on TESTEN, and the decoder's check before either. -/
theorem setcapWritesCapInTestMode : Obligations.SetcapWritesCapInTestMode := by
  refine ⟨fun s v hm => ?_, fun s v hm => ?_, fun s cw rest => setcap_fieldFault,
    wordsRun_encode (i := .setcap false) rfl, wordsRun_encode (i := .setcap true) rfl⟩
  · rw [exec_setcap, if_pos hm, zextFlag_eq]
    rfl
  · rw [exec_setcap, hm]
    rfl

end Sys2Proof.Machine

/-! HCL (44_host_commands.md): the words, the faults and the next state of each host command (R130 to R138), and runs of
several frames from an idle engine (R138 to R141). -/

namespace Sys2Proof.Machine

/-! ### Faults of the formats FL and FW (30_encoding.md R61, R62) -/

/-- A supplied frame whose word is not legal in the format of its OPC's row raises Ill(2). -/
theorem step_of_not_legal {s : State} {cw : Word} {rest : List Word} {r : OpcodeRow} (hr : r ∈ opcodeRows)
    (ha : s.Accepting) (hc : s.cmdPort = cw :: rest) (ho : opcField cw = r.opc) (hl : ¬ r.format.Legal cw)
    (hs : s.supplied (frameExtent cw) = true) :
    step s = .next (s.faulted 2 (frameExtent cw).words (frameExtent cw).bytes) := by
  have hrest : opcField cw = 0x17 → rest ≠ [] := by
    rintro h17 rfl
    have hw := ((supplied_iff _ _).mp hs).1
    rw [frameExtent_operand h17, hc] at hw
    exact absurd hw (by decide : ¬ 2 ≤ 1)
  have hd : decode s.cmdPort = .error .illField := by
    rw [hc]
    exact decode_of_not_legal hrest hr ho hl
  rw [step_of_illField ha hc hs hd, raiseIll_eq_faulted]
  rfl

/-- A frame of format FL is its command word and LEN payload bytes, and a non-zero ARG in it raises Ill(2). -/
theorem payloadFieldFault_of_FL {o : BitVec 8} (ho : ∃ r ∈ opcodeRows, r.format = .FL ∧ r.opc = o) :
    PayloadFieldFault o := by
  obtain ⟨r, hr, hf, rfl⟩ := ho
  have hopc : ∀ r ∈ opcodeRows, r.format = .FL → r.opc = 0x11 ∨ r.opc = 0x13 := by decide
  intro s cw rest ha hc ho hz hb
  have hx : frameExtent cw = .payload (lenField cw).toNat := frameExtent_payload (ho ▸ hopc r hr hf)
  have hl : ¬ r.format.Legal cw := by
    rw [hf]
    exact hz
  have hs : s.supplied (frameExtent cw) = true := by
    rw [hx]
    exact (supplied_iff _ _).mpr ⟨by simp [hc, Extent.payload], hb⟩
  rw [step_of_not_legal hr ha hc ho hl hs, hx]
  rfl

/-- The frame of WRSTATE is its command word and its operand word, and a non-zero field in it raises Ill(2). -/
theorem fieldFault_wrstate : FieldFault 0x17 2 := by
  obtain ⟨r, hr, hf, hopc⟩ : ∃ r ∈ opcodeRows, r.format = .FW ∧ r.opc = 0x17 := by decide
  intro s cw rest ha hc ho hz hw
  have hx : frameExtent cw = .operand := frameExtent_operand ho
  have hl : ¬ r.format.Legal cw := by
    rw [hf]
    exact not_and_or.mpr hz
  have hs : s.supplied (frameExtent cw) = true := by
    rw [hx]
    exact (supplied_iff _ _).mpr ⟨hw, Nat.zero_le _⟩
  rw [step_of_not_legal hr ha hc (ho.trans hopc.symm) hl hs, hx]
  rfl

/-- LEN is the low part of a payload command's word (R64). -/
theorem commandWord_len (o : BitVec 8) {len : Nat} (h : len < 2 ^ 48) :
    commandWord o 0 len = commandWord o 0 0 + BitVec.ofNat 64 len := by
  have hlow : BitVec.ofNat 64 len = commandWord 0 0 len := by
    refine BitVec.eq_of_getLsbD_eq fun i hi => ?_
    rw [getLsbD_commandWord, BitVec.getLsbD_ofNat, BitVec.getLsbD_ofNat]
    by_cases h48 : i < 48
    · simp [h48, hi]
    · have hbit : len.testBit i = false :=
        Nat.testBit_lt_two_pow (h.trans_le (Nat.pow_le_pow_right (by decide) (Nat.not_lt.mp h48)))
      simp [h48, hbit]
  rw [hlow, BitVec.add_eq_or_of_and_eq_zero]
  · refine BitVec.eq_of_getLsbD_eq fun i hi => ?_
    simp only [BitVec.getLsbD_or, getLsbD_commandWord]
    split <;> simp
  · refine BitVec.eq_of_getLsbD_eq fun i hi => ?_
    simp only [BitVec.getLsbD_and, getLsbD_commandWord]
    split <;> simp

/-! ### The next state of each command (R130 to R138) -/

/-- XOROUT is all ones, so the final exclusive or is the complement (R142). -/
theorem invertOut_eq_not (crc : Word) : invertOut crc = ~~~crc := BitVec.xor_allOnes

/-- Without CAP, or with less than a full block, no accumulator is written (R105). -/
theorem scratchAcc_ACC_of_no_block {s : State} {len : Nat} (h : s.CAP = false ∨ len < 16 * Config.nlanes.count) :
    (s.scratchAcc len).ACC = s.ACC := by
  have hf : s.folds len = false := by
    obtain h | h := h
    · rw [State.folds, h, Bool.false_and]
    · exact Bool.and_eq_false_iff.mpr (.inr (decide_eq_false (Nat.not_le.mpr h)))
  rw [State.scratchAcc_ACC, hf]
  rfl

/-- The empty payload leaves the CRC state, whatever the table RAM holds. -/
theorem State.dispatch_nil (s : State) (crc : Word) : s.dispatch crc [] = crc := by
  have hpath : refPath Config.slice8 s.T.read crc [] = crc := by
    rw [refPath]
    split <;> rfl
  rw [State.dispatch, Machine.dispatch]
  split
  · rw [foldUpd_of_short (D := []) _ _ _ (foldBlk_pos _), hpath]
  · exact hpath

/-- Settles O43: UPDATE completes its frame after the body, whose DISPATCH is the byte path over the generated table. -/
theorem updateAbsorbsPayload : Obligations.UpdateAbsorbsPayload := by
  refine ⟨fun s len hl => ⟨(s.scratchAcc len).ACC, (s.scratchAcc len).draws, ?_, scratchAcc_ACC_of_no_block,
      fun hinv hT => State.dispatch_of_tableBuilt (hinv.built hT) _ _⟩,
    payloadFieldFault_of_FL (by decide), fun len hl => ?_, fun s => s.dispatch_nil s.S,
    fun s b hinv hT => State.dispatch_of_tableBuilt (hinv.built hT) _ _, by decide +kernel, by decide +kernel⟩
  · rw [exec_update, if_pos hl]
    rfl
  · have hrun := wordsRun_encode ((wellFormed_update len).mpr hl)
    rwa [encode, commandWord_len _ hl] at hrun

/-- Settles O45: CHECKSUM completes its frame with the scratch written and the complement of DISPATCH from INIT. -/
theorem checksumLeavesStream : Obligations.ChecksumLeavesStream := by
  refine ⟨fun s len hl => ⟨(s.scratchAcc len).ACC, (s.scratchAcc len).draws, ?_, scratchAcc_ACC_of_no_block,
      fun hinv hT => State.dispatch_of_tableBuilt (hinv.built hT) _ _⟩,
    payloadFieldFault_of_FL (by decide), fun len hl => ?_⟩
  · rw [exec_checksum, if_pos hl, State.checksumBody, invertOut_eq_not]
    rfl
  · have hrun := wordsRun_encode ((wellFormed_checksum len).mpr hl)
    rwa [encode, commandWord_len _ hl] at hrun

/-- Settles O41: NOP is its response alone, and STAT is its flags in order. -/
theorem nopReturnsStatus : Obligations.NopReturnsStatus := by
  refine ⟨fun s => exec_nop s, fieldFault_of_F0 (by decide), wordsRun_encode (i := .nop) rfl, ?_⟩
  intro s hready hTV hCAPV hCAP hTESTEN hILL hCAUSE
  rw [State.stat, hready, hTV, hCAPV, hCAP, hTESTEN, hILL, hCAUSE]
  rfl

/-- Settles O42: RESET writes INIT, which the second RESET writes again and SUM complements to zero. -/
theorem resetLoadsInit : Obligations.ResetLoadsInit := by
  refine ⟨fun s => exec_reset s, fieldFault_of_F0 (by decide), wordsRun_encode (i := .reset) rfl, ?_⟩
  intro s t h
  rw [exec_reset] at h
  cases h
  have hzero : invertOut INIT = 0 := by decide
  refine ⟨⟨_, exec_reset _, rfl⟩, _, exec_sum _, ?_⟩
  rw [State.lastResponse, State.complete_respPort, List.getLast?_concat]
  change some (Response.mk (invertOut INIT) s.stat (beBytes (invertOut INIT))) = _
  rw [hzero]
  rfl

/-- Settles O44: SUM completes its frame with the complement of S and its bytes. -/
theorem sumReturnsDigest : Obligations.SumReturnsDigest := by
  refine ⟨fun s => ?_, fieldFault_of_F0 (by decide), wordsRun_encode (i := .sum) rfl⟩
  rw [exec_sum, invertOut_eq_not]
  rfl

/-- Settles O46: SIZE is its response alone. -/
theorem sizeIsEight : Obligations.SizeIsEight :=
  ⟨fun s => exec_size s, fieldFault_of_F0 (by decide), wordsRun_encode (i := .size) rfl⟩

/-- Settles O47: BLKSIZE is its response alone. -/
theorem blksizeIsOne : Obligations.BlksizeIsOne :=
  ⟨fun s => exec_blksize s, fieldFault_of_F0 (by decide), wordsRun_encode (i := .blksize) rfl⟩

/-- Settles O48: RDSTATE is its response alone, which carries S. -/
theorem rdstateReturnsState : Obligations.RdstateReturnsState :=
  ⟨fun s => exec_rdstate s, fieldFault_of_F0 (by decide), wordsRun_encode (i := .rdstate) rfl⟩

/-- Settles O49: WRSTATE writes its operand word, and its extent is two words, legal or not. -/
theorem wrstateLoadsState : Obligations.WrstateLoadsState :=
  ⟨fun s opw => exec_wrstate opw s, fieldFault_wrstate, fun opw => wordsRun_encode (i := .wrstate opw) rfl⟩

end Sys2Proof.Machine

/-! Runs of frames sent together to an idle engine (44_host_commands.md R138 to R141): a command takes its own frame
and leaves what was sent behind it, so the effect of a sequence of frames is the composition of their effects. -/

namespace Sys2Proof.Machine

/-! ### Frames behind the one at the head wait (30_encoding.md R62) -/

theorem State.send_nil (s : State) : s.send [] = s := by
  simp [State.send]

theorem State.send_append (s : State) (fs gs : List Frame) : s.send (fs ++ gs) = (s.send fs).send gs := by
  simp [State.send]

/-- Completing a frame that is there in full leaves the frames behind it. -/
theorem complete_send (s : State) {e : Extent} (hw : e.words ≤ s.cmdPort.length) (hb : e.bytes ≤ s.dataPort.length)
    (val : Word) (dout : List Byte) (gs : List Frame) :
    (s.send gs).complete e val dout = (s.complete e val dout).send gs := by
  have hcmd : (s.cmdPort ++ gs.flatMap Frame.words).drop e.words = s.cmdPort.drop e.words ++ gs.flatMap Frame.words :=
    List.drop_append_of_le_length hw
  have hdata : (s.dataPort ++ gs.flatMap Frame.payload).drop e.bytes =
      s.dataPort.drop e.bytes ++ gs.flatMap Frame.payload := List.drop_append_of_le_length hb
  simp only [State.complete, State.consume, State.send, hcmd, hdata]
  rfl

theorem payload_send {s : State} {len : Nat} (h : len ≤ s.dataPort.length) (gs : List Frame) :
    (s.send gs).payload len = s.payload len := List.take_append_of_le_length h

theorem le_length_dataPort_send {s : State} {len : Nat} (h : len ≤ s.dataPort.length) (gs : List Frame) :
    len ≤ (s.send gs).dataPort.length :=
  h.trans (by simp [State.send])

/-- A command whose frame is there in full has the same effect whatever frames follow, which wait. -/
theorem exec_send {i : Instr} {s t : State} (hw : i.extent.words ≤ s.cmdPort.length)
    (hb : i.extent.bytes ≤ s.dataPort.length) (gs : List Frame) (h : exec i s = .next t) :
    exec i (s.send gs) = .next (t.send gs) := by
  cases i with
  | nop | sum | size | blksize | rdstate =>
    cases h
    exact congrArg _ (complete_send s hw hb _ _ gs)
  | tgen =>
    cases h
    exact congrArg _ (complete_send s.tgenBody hw hb _ _ gs)
  | probe =>
    cases h
    exact congrArg _ (complete_send s.probeBody hw hb _ _ gs)
  | reset =>
    cases h
    exact congrArg _ (complete_send { s with S := INIT } hw hb _ _ gs)
  | wrstate opw =>
    cases h
    exact congrArg _ (complete_send { s with S := opw } hw hb _ _ gs)
  | setcap v =>
    cases h
    rw [apply_ite (State.send gs)]
    exact congrArg _ (if_congr Iff.rfl (complete_send { s with CAP := v } hw hb _ _ gs)
      (complete_send (s.recordIll .priv) hw hb _ _ gs))
  | update len =>
    have hl : len ≤ s.dataPort.length := hb
    rw [exec_update, if_pos hl] at h
    cases h
    rw [exec_update, if_pos (le_length_dataPort_send hl gs), State.updateBody, payload_send hl]
    exact congrArg _
      (complete_send (State.scratchAcc len { s with S := s.dispatch s.S (s.payload len) }) hw hb _ _ gs)
  | checksum len =>
    have hl : len ≤ s.dataPort.length := hb
    rw [exec_checksum, if_pos hl] at h
    cases h
    rw [exec_checksum, if_pos (le_length_dataPort_send hl gs), State.checksumBody, payload_send hl]
    exact congrArg _ (complete_send (s.scratchAcc len) hw hb _ _ gs)

/-! ### The effect of frames on an idle engine -/

/-- `s.Serves fs t`: the frames `fs`, sent to the idle engine `s`, lead to the idle engine `t` in one step each,
whatever frames were sent behind them, and the invariant is kept. -/
structure State.Serves (s : State) (fs : List Frame) (t : State) : Prop where
  run : ∀ (gs : List Frame) (n : Nat), core.run (fs.length + n) (s.send (fs ++ gs)) = core.run n (t.send gs)
  idle : t.Idle
  inv : s.Inv → t.Inv

theorem State.Serves.nil {s : State} (h : s.Idle) : s.Serves [] s :=
  ⟨fun gs n => by rw [List.nil_append, List.length_nil, Nat.zero_add], h, id⟩

theorem State.Serves.append {s t u : State} {fs gs : List Frame} (h : s.Serves fs t) (h' : t.Serves gs u) :
    s.Serves (fs ++ gs) u where
  run ks n := by
    rw [List.length_append, Nat.add_assoc, List.append_assoc, h.run, h'.run]
  idle := h'.idle
  inv := h'.inv ∘ h.inv

theorem State.Serves.cons {s t u : State} {f : Frame} {fs : List Frame} (h : s.Serves [f] t) (h' : t.Serves fs u) :
    s.Serves (f :: fs) u := h.append h'

/-- Frames sent alone: the engine ends with nothing on its input ports. -/
theorem State.Serves.run_alone {s t : State} {fs : List Frame} (h : s.Serves fs t) :
    core.run fs.length (s.send fs) = .next t := by
  have hrun := h.run [] 0
  rwa [List.append_nil, Nat.add_zero, State.send_nil, run_zero] at hrun

theorem accepting_of_exec {i : Instr} {s t : State} (ha : s.Accepting) (h : exec i s = .next t) : t.Accepting := by
  obtain ⟨-, -, -, -, -, -, -, hready, hrst, -⟩ := commandFrames i s t h
  exact ⟨hrst.trans ha.1, hready.trans ha.2⟩

/-- Sending touches the ports only. -/
theorem inv_send {s : State} (h : s.Inv) (fs : List Frame) : (s.send fs).Inv :=
  ⟨h.canonical, h.inRange, h.built, h.booted, h.noCause, h.cause, h.lanes⟩

/-- `f` is a frame of the command `i`: the words of `i`, and as many payload bytes as `i` claims. -/
structure Frame.Carries (f : Frame) (i : Instr) : Prop where
  wellFormed : i.wellFormed = true
  words : f.words = encode i
  bytes : f.payload.length = i.extent.bytes

theorem cmdPort_send_of_idle {s : State} (hs : s.Idle) (f : Frame) : (s.send [f]).cmdPort = f.words := by
  obtain ⟨-, hcmd, -⟩ := hs
  simp [State.send, hcmd]

theorem dataPort_send_of_idle {s : State} (hs : s.Idle) (f : Frame) : (s.send [f]).dataPort = f.payload := by
  obtain ⟨-, -, hdata⟩ := hs
  simp [State.send, hdata]

/-- An idle engine serves the frame of a command by running the command. -/
theorem serves_of_carries {s : State} {f : Frame} {i : Instr} (hs : s.Idle) (hf : f.Carries i) :
    ∃ t, exec i (s.send [f]) = .next t ∧ s.Serves [f] t := by
  have hc : (s.send [f]).cmdPort = encode i := (cmdPort_send_of_idle hs f).trans hf.words
  have hw : (s.send [f]).cmdPort.length = i.extent.words := by rw [hc, length_encode]
  have hb : (s.send [f]).dataPort.length = i.extent.bytes := by rw [dataPort_send_of_idle hs, hf.bytes]
  have ha : (s.send [f]).Accepting := hs.1
  obtain ⟨t, ht, hcons⟩ := exec_consumes hb.ge
  have hstep (gs : List Frame) : step (s.send ([f] ++ gs)) = .next (t.send gs) := by
    rw [State.send_append, ← exec_send hw.ge hb.ge gs ht]
    refine stepRunsDecodedCommand _ i (gs.flatMap Frame.words) ha hf.wellFormed ?_
    rw [← hc]
    rfl
  refine ⟨t, ht, fun gs n => ?_, ⟨accepting_of_exec ha ht, ?_, ?_⟩, fun hinv => ?_⟩
  · rw [List.length_singleton, Nat.add_comm, run_of_step n (hstep gs)]
  · rw [hcons.words, ← hw, List.drop_length]
  · rw [hcons.bytes, ← hb, List.drop_length]
  · refine inv_step (inv_send hinv [f]) ?_
    simpa only [List.append_nil, State.send_nil] using hstep []

theorem carries_of {i : Instr} (hw : i.wellFormed = true) (hb : i.extent.bytes = 0) : (Frame.of i).Carries i :=
  ⟨hw, rfl, hb.symm⟩

theorem carries_update {D : List Byte} (h : D.length < 2 ^ 48) : (Frame.update D).Carries (.update D.length) :=
  ⟨(wellFormed_update _).mpr h, rfl, rfl⟩

theorem carries_checksum {D : List Byte} (h : D.length < 2 ^ 48) : (Frame.checksum D).Carries (.checksum D.length) :=
  ⟨(wellFormed_checksum _).mpr h, rfl, rfl⟩

/-! ### What the single frames do to an idle engine -/

/-- The response of SUM. -/
def State.digest (s : State) : Response := ⟨invertOut s.S, s.stat, beBytes (invertOut s.S)⟩

theorem serves_reset {s : State} (hs : s.Idle) :
    ∃ t, s.Serves [Frame.of .reset] t ∧ t.S = INIT ∧ t.stat = s.stat := by
  obtain ⟨t, ht, hserves⟩ := serves_of_carries hs (carries_of (i := .reset) rfl rfl)
  cases ht
  exact ⟨_, hserves, rfl, rfl⟩

theorem serves_wrstate {s : State} (hs : s.Idle) (w : Word) :
    ∃ t, s.Serves [Frame.of (.wrstate w)] t ∧ t.S = w := by
  obtain ⟨t, ht, hserves⟩ := serves_of_carries hs (carries_of (i := .wrstate w) rfl rfl)
  cases ht
  exact ⟨_, hserves, rfl⟩

theorem serves_rdstate {s : State} (hs : s.Idle) :
    ∃ t, s.Serves [Frame.of .rdstate] t ∧ t.lastResponse = some ⟨s.S, s.stat, []⟩ := by
  obtain ⟨t, ht, hserves⟩ := serves_of_carries hs (carries_of (i := .rdstate) rfl rfl)
  cases ht
  exact ⟨_, hserves, List.getLast?_concat⟩

theorem serves_sum {s : State} (hs : s.Idle) :
    ∃ t, s.Serves [Frame.of .sum] t ∧ t.S = s.S ∧ t.stat = s.stat ∧ t.respPort = s.respPort ++ [s.digest] := by
  obtain ⟨t, ht, hserves⟩ := serves_of_carries hs (carries_of (i := .sum) rfl rfl)
  cases ht
  exact ⟨_, hserves, rfl, rfl, rfl⟩

/-- SETCAP leaves S in either mode. -/
theorem serves_setcap {s : State} (hs : s.Idle) (v : Bool) :
    ∃ t, s.Serves [Frame.of (.setcap v)] t ∧ t.S = s.S := by
  obtain ⟨t, ht, hserves⟩ := serves_of_carries hs (carries_of (i := .setcap v) rfl rfl)
  obtain ⟨hS, -⟩ := commandFrames _ _ _ ht
  exact ⟨t, hserves, hS nofun nofun nofun⟩

/-- Over the table that the invariant promises an accepting engine, DISPATCH is the byte path. -/
theorem dispatch_of_inv {s : State} (hs : s.Accepting) (hinv : s.Inv) (crc : Word) (D : List Byte) :
    s.dispatch crc D = refUpd tabValue crc D :=
  State.dispatch_of_tableBuilt (hinv.built (hinv.booted hs.2).1) crc D

theorem serves_update {s : State} (hs : s.Idle) (hinv : s.Inv) {D : List Byte} (hD : D.length < 2 ^ 48) :
    ∃ t, s.Serves [Frame.update D] t ∧ t.S = refUpd tabValue s.S D ∧ t.stat = s.stat := by
  obtain ⟨t, ht, hserves⟩ := serves_of_carries hs (carries_update hD)
  have hdata : (s.send [Frame.update D]).dataPort = D := dataPort_send_of_idle hs _
  rw [exec_update, hdata, if_pos le_rfl, State.updateBody, State.payload, hdata, List.take_length] at ht
  cases ht
  exact ⟨_, hserves, dispatch_of_inv hs.1 hinv s.S D, rfl⟩

theorem serves_checksum {s : State} (hs : s.Idle) (hinv : s.Inv) {D : List Byte} (hD : D.length < 2 ^ 48) :
    ∃ t, s.Serves [Frame.checksum D] t ∧ t.S = s.S ∧
      t.lastResponse = some ⟨invertOut (refUpd tabValue INIT D), s.stat, []⟩ := by
  obtain ⟨t, ht, hserves⟩ := serves_of_carries hs (carries_checksum hD)
  have hdata : (s.send [Frame.checksum D]).dataPort = D := dataPort_send_of_idle hs _
  rw [exec_checksum, hdata, if_pos le_rfl, State.checksumBody, State.payload, hdata, List.take_length] at ht
  cases ht
  refine ⟨_, hserves, rfl, ?_⟩
  rw [← dispatch_of_inv hs.1 hinv]
  exact List.getLast?_concat

/-- A chunk absorbs its bytes into S, whatever SETCAP stands before it. -/
theorem serves_chunk {s : State} (hs : s.Idle) (hinv : s.Inv) {c : Chunk} (hc : c.bytes.length < 2 ^ 48) :
    ∃ t, s.Serves c.frames t ∧ t.S = refUpd tabValue s.S c.bytes := by
  obtain ⟨v, D⟩ := c
  cases v with
  | none =>
    obtain ⟨t, ht, hS, -⟩ := serves_update hs hinv hc
    exact ⟨t, ht, hS⟩
  | some v =>
    obtain ⟨t, ht, hS⟩ := serves_setcap hs v
    obtain ⟨u, hu, hS', -⟩ := serves_update ht.idle (ht.inv hinv) hc
    exact ⟨u, ht.cons hu, hS ▸ hS'⟩

/-- The chunks of a stream absorb the bytes of all of them, in order (R139). -/
theorem serves_chunks {s : State} (hs : s.Idle) (hinv : s.Inv) {cs : List Chunk}
    (hcs : ∀ c ∈ cs, c.bytes.length < 2 ^ 48) :
    ∃ t, s.Serves (cs.flatMap Chunk.frames) t ∧ t.S = refUpd tabValue s.S (cs.flatMap Chunk.bytes) := by
  induction cs generalizing s with
  | nil => exact ⟨s, .nil hs, rfl⟩
  | cons c cs ih =>
    obtain ⟨hc, hcs⟩ := List.forall_mem_cons.mp hcs
    obtain ⟨t, ht, hS⟩ := serves_chunk hs hinv hc
    obtain ⟨u, hu, hS'⟩ := ih ht.idle (ht.inv hinv) hcs
    refine ⟨u, ht.append hu, ?_⟩
    rw [hS', hS, List.flatMap_cons, refUpd_append]

/-! ### Sessions and streams (R138 to R141) -/

/-- Settles O50: the three frames one after another, from a state that meets the invariant. -/
theorem sessionRestoreAndUpdate : Obligations.SessionRestoreAndUpdate := by
  intro st s D hreach hidle hD
  obtain ⟨t₁, h₁, hS₁⟩ := serves_wrstate hidle s
  obtain ⟨t₂, h₂, hS₂, -⟩ := serves_update h₁.idle (h₁.inv hreach.inv) hD
  obtain ⟨t₃, h₃, hlast⟩ := serves_rdstate h₂.idle
  exact ⟨t₃, _, (h₁.cons (h₂.cons h₃)).run_alone, hlast, hS₁ ▸ hS₂, h₃.idle⟩

/-- Settles O51: RESET, the chunks and SUM one after another, and CHECKSUM of the whole from the same state. -/
theorem streamingEquivalence : Obligations.StreamingEquivalence := by
  intro st cs hinv hidle hcs
  obtain ⟨t₁, h₁, hS₁, -⟩ := serves_reset hidle
  obtain ⟨t₂, h₂, hS₂⟩ := serves_chunks h₁.idle (h₁.inv hinv) hcs
  obtain ⟨t₃, h₃, -, -, hresp⟩ := serves_sum h₂.idle
  have hval : t₂.digest.val = invertOut (refUpd tabValue INIT (cs.flatMap Chunk.bytes)) := by
    rw [State.digest, hS₂, hS₁]
  refine ⟨t₃, t₂.digest, (h₁.cons (h₂.append h₃)).run_alone, ?_, hval.trans (invertOut_eq_not _), rfl, fun hD => ?_⟩
  · rw [State.lastResponse, hresp, List.getLast?_concat]
  · obtain ⟨t', h', hS', hlast⟩ := serves_checksum hidle hinv hD
    exact ⟨t', _, h'.run_alone, hlast, hval.symm, hS'⟩

/-- Settles O52: the seven commands are not among the three that write S, and the digest depends on S and the status
alone. -/
theorem sumIsIdempotent : Obligations.SumIsIdempotent := by
  refine ⟨fun i s t hi h => ?_, fun st hidle => ?_⟩
  · obtain ⟨hS, -⟩ := commandFrames i s t h
    obtain rfl | rfl | rfl | rfl | rfl | rfl | ⟨len, rfl⟩ := hi <;> exact hS nofun nofun nofun
  · obtain ⟨t, h, hS, hstat, hresp⟩ := serves_sum hidle
    obtain ⟨u, h', -, -, hresp'⟩ := serves_sum h.idle
    have hdigest : t.digest = st.digest := by
      rw [State.digest, State.digest, hS, hstat]
    refine ⟨u, st.digest, (h.cons h').run_alone, ?_⟩
    rw [hresp', hresp, hdigest, List.append_assoc]
    rfl

/-- `RESET; UPDATE b; SUM` (R141): its last response and S depend on `b` and the status alone. -/
theorem serves_fresh_digest {s : State} (hs : s.Idle) (hinv : s.Inv) {b : List Byte} (hb : b.length < 2 ^ 48) :
    ∃ t, s.Serves [Frame.of .reset, Frame.update b, Frame.of .sum] t ∧ t.S = refUpd tabValue INIT b ∧
      t.lastResponse = some ⟨invertOut t.S, s.stat, beBytes (invertOut t.S)⟩ := by
  obtain ⟨t₁, h₁, hS₁, hstat₁⟩ := serves_reset hs
  obtain ⟨t₂, h₂, hS₂, hstat₂⟩ := serves_update h₁.idle (h₁.inv hinv) hb
  obtain ⟨t₃, h₃, hS₃, -, hresp⟩ := serves_sum h₂.idle
  refine ⟨t₃, h₁.cons (h₂.cons h₃), by rw [hS₃, hS₂, hS₁], ?_⟩
  rw [State.lastResponse, hresp, List.getLast?_concat, State.digest, hS₃, hstat₂, hstat₁]

/-- Settles O53: UPDATE keeps the status, and what follows from RESET depends on nothing else of the state. -/
theorem resetForgetsTheStream : Obligations.ResetForgetsTheStream := by
  intro st a b hreach hidle ha hb
  obtain ⟨t₁, h₁, -, hstat⟩ := serves_update hidle hreach.inv ha
  obtain ⟨t, h, hS, hlast⟩ := serves_fresh_digest h₁.idle (h₁.inv hreach.inv) hb
  obtain ⟨t', h', hS', hlast'⟩ := serves_fresh_digest hidle hreach.inv hb
  refine ⟨t, t', _, _, (h₁.cons h).run_alone, h'.run_alone, hlast, hlast', ?_, hS.trans hS'.symm⟩
  rw [hS, hS', hstat]

end Sys2Proof.Machine

/-! Exceptions, modes and the host (60_exceptions.md): the waits for a frame (R157, R159), the step on an illegal frame
and the priority of its causes (R151, R152), the two modes (R155), and the host's moves (R159). -/

namespace Sys2Proof.Machine

/-! ### Waiting (R157, R159) -/

/-- A command whose payload is not there in full waits for it. -/
theorem exec_waits {i : Instr} {s : State} (h : s.dataPort.length < i.extent.bytes) : exec i s = .next s := by
  cases i with
  | update len =>
    have hl : ¬ len ≤ s.dataPort.length := Nat.not_le.mpr h
    rw [exec_update, if_neg hl]
  | checksum len =>
    have hl : ¬ len ≤ s.dataPort.length := Nat.not_le.mpr h
    rw [exec_checksum, if_neg hl]
  | nop | tgen | probe | setcap | reset | sum | size | blksize | rdstate | wrstate =>
    exact absurd h (Nat.not_lt_zero _)

/-- A frame, legal or not, waits for the payload bytes that its command word claims. -/
theorem step_waits_for_payload {s : State} {cw : Word} {rest : List Word} (ha : s.Accepting)
    (hc : s.cmdPort = cw :: rest) (h : s.dataPort.length < (frameExtent cw).bytes) : step s = .next s := by
  cases hd : decode s.cmdPort with
  | ok i =>
    have hx : frameExtent cw = i.extent := frameExtent_of_encodes (hc ▸ encodes_of_decode hd)
    rw [step_of_decode ha.1 ha.2 hd, exec_waits (hx ▸ h)]
  | error e =>
    refine step_of_unsupplied ha (Bool.eq_false_iff.mpr fun hs => ?_) hd
    rw [headExtent_of_cons hc, supplied_iff] at hs
    exact Nat.not_le.mpr h hs.2

/-- With too few words on its command port to decode, an accepting engine holds its state. -/
theorem step_of_incomplete {s : State} (ha : s.Accepting) (hd : decode s.cmdPort = .error .incomplete) :
    step s = .next s := step_of_reject ha.1 ha.2 hd

/-- Settles O10: an empty port and a lone OPC 0x17 word decode to nothing yet, and an FL word claims LEN bytes. -/
theorem idleOrWaitingHoldsState : Obligations.IdleOrWaitingHoldsState := by
  refine ⟨fun s ha hc => step_of_incomplete ha ?_, fun s cw rest ha hc ho hl => step_waits_for_payload ha hc ?_,
    fun s cw ha hc ho => step_of_incomplete ha ?_⟩
  · rw [hc]
    rfl
  · rwa [frameExtent_payload ho]
  · rw [hc, decode_cons, ho]
    rfl

/-! ### The step on an illegal frame (R151) -/

/-- A reserved opcode claims its command word alone (30_encoding.md R62). -/
theorem frameExtent_of_not_assigned {cw : Word} (h : opcField cw ∉ assignedOpcodes) : frameExtent cw = .word := by
  refine frameExtent_word ?_ ?_ ?_ <;> intro ho <;> exact h (ho ▸ by decide)

theorem supplied_word {s : State} {cw : Word} {rest : List Word} (hc : s.cmdPort = cw :: rest) :
    s.supplied .word = true :=
  (supplied_iff s .word).mpr ⟨by simp [hc, Extent.word], Nat.zero_le _⟩

/-- Cause 1: a reserved opcode, whatever the other fields are. -/
theorem step_of_not_assigned {s : State} {cw : Word} {rest : List Word} (ha : s.Accepting)
    (hc : s.cmdPort = cw :: rest) (h : opcField cw ∉ assignedOpcodes) : step s = .next (s.faulted 1 1 0) := by
  have hx := frameExtent_of_not_assigned h
  have hd : decode s.cmdPort = .error .illOpc := by rw [hc, decode_of_not_assigned h]
  rw [step_of_illOpc ha hc (hx ▸ supplied_word hc) hd, hx]
  rfl

/-- Cause 2: an assigned opcode in a word that selects no row. -/
theorem step_of_no_row {s : State} {cw : Word} {rest : List Word} (ha : s.Accepting) (hc : s.cmdPort = cw :: rest)
    (h : opcField cw ∈ assignedOpcodes) (hrow : ∀ r ∈ opcodeRows, r.selects cw = false)
    (hs : s.supplied (frameExtent cw) = true) :
    step s = .next (s.faulted 2 (frameExtent cw).words (frameExtent cw).bytes) := by
  obtain ⟨r, hr, ho⟩ := (mem_assignedOpcodes_iff _).mp h
  refine step_of_not_legal hr ha hc ho.symm (fun hl => ?_) hs
  exact absurd ((selects_iff hr cw).mpr ⟨ho.symm, hl⟩) (by simp [hrow r hr])

theorem exec_setcap_production {s : State} (v : Bool) (h : s.TESTEN = false) :
    exec (.setcap v) s = .next (s.faulted 3 1 0) := by
  obtain ⟨-, hproduction, -⟩ := setcapWritesCapInTestMode
  exact hproduction s v h

/-- Cause 3: a word of the SETCAP row in production mode. -/
theorem step_of_setcap_production {s : State} {cw : Word} {rest : List Word} (ha : s.Accepting)
    (hc : s.cmdPort = cw :: rest) (ho : opcField cw = 0x03) (hl : Format.FA.Legal cw) (h : s.TESTEN = false) :
    step s = .next (s.faulted 3 1 0) := by
  have hd : decode s.cmdPort = .ok (.setcap (vField cw)) := hc ▸ (encodes_setcap rest ho hl).decode
  rw [step_of_decode ha.1 ha.2 hd, exec_setcap_production _ h]

/-- An accepting engine goes on accepting: neither a command nor a fault writes `rst` or READY. -/
theorem accepting_of_step {s t : State} (ha : s.Accepting) (h : step s = .next t) : t.Accepting := by
  obtain ⟨hr, -⟩ | ⟨-, hb, -⟩ | ⟨-, -, i, -, hi⟩ | ⟨-, -, e, -, rfl⟩ := step_cases h
  · exact absurd hr (by simp [ha.1])
  · exact absurd hb (by simp [ha.2])
  · exact accepting_of_exec ha hi
  · obtain ⟨he, -⟩ | ⟨c, -, -, he⟩ := rejectFrame_cases e s <;> rw [he] <;> exact ha

/-- Settles O17: the step on a frame of each cause; a reserved opcode and SETCAP have a frame of one word. -/
theorem illegalFrameFaults : Obligations.IllegalFrameFaults := by
  intro s cw rest ha hc hw hb
  refine ⟨fun h => ?_, fun h hrow => step_of_no_row ha hc h hrow ((supplied_iff _ _).mpr ⟨hw, hb⟩),
    fun ho hz hl h => step_of_setcap_production ha hc ho ⟨hz, hl⟩ h, fun t => accepting_of_step ha⟩
  rw [frameExtent_of_not_assigned h]
  exact step_of_not_assigned ha hc h

/-! ### Causes and their priority (R150, R152) -/

/-- Of the commands only SETCAP raises anything, and only in production mode. -/
theorem setcap_of_exec_faults {i : Instr} {s t : State} (h : exec i s = .next t) (hs : s.ILL = false)
    (ht : t.ILL = true) : s.TESTEN = false ∧ ∃ v, i = .setcap v := by
  by_cases hi : ∃ v, i = .setcap v
  · obtain ⟨v, rfl⟩ := hi
    refine ⟨Bool.eq_false_iff.mpr fun hm => ?_, v, rfl⟩
    rw [exec_setcap, if_pos hm] at h
    cases h
    exact absurd ht (by simp [hs])
  · obtain ⟨-, -, -, -, -, hill, -⟩ := commandFrames i s t h
    have heq : t.ILL = s.ILL := (hill fun v hv => hi ⟨v, hv⟩).1
    exact absurd ht (by simp [heq, hs])

/-- The first fault since reset sets ILL and leaves its own cause. -/
theorem first_fault_recorded {s t : State} {code : BitVec 2} {words bytes : Nat} (h : step s = .next t)
    (hf : step s = .next (s.faulted code words bytes)) (hs : s.ILL = false) : t.ILL = true ∧ t.CAUSE = code := by
  cases h.symm.trans hf
  exact ⟨rfl, by simp [State.faulted, hs]⟩

/-- Settles O18: SETCAP is the only command that raises, and each of the three faults, the first one, leaves its
cause. -/
theorem faultCausesAndPriority : Obligations.FaultCausesAndPriority := by
  refine ⟨fun i s t => setcap_of_exec_faults, fun s t cw rest ha hc h => ⟨fun ho hz => ?_, fun ho hz hl hm => ?_,
    fun ho => ?_, fun hill => ((kept_step ha.1 h).ill hill).2⟩⟩
  · exact first_fault_recorded h (setcap_fieldFault ha hc ho hz)
  · exact first_fault_recorded h (step_of_setcap_production ha hc ho ⟨hz, hl⟩ hm)
  · exact first_fault_recorded h (step_of_not_assigned ha hc ho)

/-! ### The two modes (R155) -/

/-- `s` with another value of TESTEN. -/
def State.withMode (b : Bool) (s : State) : State := { s with TESTEN := b }

/-- The fields of a response that do not hold TESTEN: all but bit 4 of STAT. -/
def Response.withoutMode (r : Response) : Word × BitVec 8 × List Byte := (r.val, r.stat &&& 0xEF, r.dout)

/-- `t'` is `t` in the mode `b`: the same but for TESTEN and its bit in the responses. -/
structure State.SameInMode (t : State) (b : Bool) (t' : State) : Prop where
  state : { t' with TESTEN := t.TESTEN, respPort := t.respPort } = t
  mode : t'.TESTEN = b
  responses : t'.respPort.map Response.withoutMode = t.respPort.map Response.withoutMode

/-- Masking STAT masks each of its fields (10_state.md R27). -/
theorem stat_and (s : State) (cause : BitVec 2) (ill testen cap capv tv ready : BitVec 1) :
    s.stat &&& (cause ++ ill ++ testen ++ cap ++ capv ++ tv ++ ready : BitVec (2 + 1 + 1 + 1 + 1 + 1 + 1)) =
      (s.CAUSE &&& cause) ++ (BitVec.ofBool s.ILL &&& ill) ++ (BitVec.ofBool s.TESTEN &&& testen) ++
        (BitVec.ofBool s.CAP &&& cap) ++ (BitVec.ofBool s.CAPV &&& capv) ++ (BitVec.ofBool s.TV &&& tv) ++
        (BitVec.ofBool s.READY &&& ready) := by
  simp only [← BitVec.and_append]
  rfl

theorem stat_withMode (b : Bool) (s : State) : (s.withMode b).stat &&& 0xEF = s.stat &&& 0xEF := by
  have hmask : (0xEF : BitVec 8) = 3#2 ++ 1#1 ++ 0#1 ++ 1#1 ++ 1#1 ++ 1#1 ++ 1#1 := by decide
  rw [hmask, stat_and, stat_and, BitVec.and_zero, BitVec.and_zero]
  rfl

theorem sameInMode_withMode (b : Bool) (s : State) : s.SameInMode b (s.withMode b) := ⟨rfl, rfl, rfl⟩

/-- A frame that completes with the same answer in both modes. -/
theorem sameInMode_complete (b : Bool) (u : State) (e : Extent) (val : Word) (dout : List Byte) :
    (u.complete e val dout).SameInMode b ((u.withMode b).complete e val dout) := by
  refine ⟨rfl, rfl, ?_⟩
  have hresp : (u.withMode b).respPort = u.respPort := rfl
  simp only [State.complete_respPort, hresp, List.map_append, List.map_singleton, Response.withoutMode,
    stat_withMode]

/-- A choice that does not depend on the mode, as that between a command and its wait. -/
theorem sameInMode_ite {b : Bool} (p : Prop) [Decidable p] {t t' u u' : State} (ht : t.SameInMode b t')
    (hu : u.SameInMode b u') : (if p then t else u).SameInMode b (if p then t' else u') := by
  split
  · exact ht
  · exact hu

/-- A command but SETCAP reads nothing of TESTEN. -/
theorem exec_withMode {i : Instr} {s t : State} (b : Bool) (hV : ∀ v, i ≠ .setcap v) (h : exec i s = .next t) :
    ∃ t', exec i (s.withMode b) = .next t' ∧ t.SameInMode b t' := by
  cases i with
  | setcap v => exact absurd rfl (hV v)
  | nop | tgen | probe | reset | sum | size | blksize | rdstate | wrstate =>
    cases h
    exact ⟨_, rfl, sameInMode_complete b _ _ _ _⟩
  | update | checksum =>
    cases h
    exact ⟨_, rfl, sameInMode_ite _ (sameInMode_complete b _ _ _ _) (sameInMode_withMode b s)⟩

/-- Settles O19: TESTEN over a step, the two branches of SETCAP, and that no other command reads TESTEN. -/
theorem modesDifferOnlyInSetcap : Obligations.ModesDifferOnlyInSetcap := by
  refine ⟨fun s t h => ⟨fun hr => ?_, fun hr => (kept_step hr h).strap⟩,
    fun s v => ⟨fun hm => ?_, exec_setcap_production v⟩, fun i s b hV => ?_⟩
  · rw [step_of_rst hr] at h
    cases h
    rfl
  · rw [exec_setcap, if_pos hm]
    exact ⟨_, rfl, rfl, rfl, rfl⟩
  · obtain ⟨t, ht⟩ := exec_next i s
    obtain ⟨t', ht', hsame⟩ := exec_withMode b hV ht
    exact ⟨t, t', ht, ht', hsame.state, hsame.mode, hsame.responses⟩

/-! ### The host's moves (R159) -/

/-- Settles O59: each move sets one pin, or adds to or takes from the ports. -/
theorem hostMovesTouchNoRegister : Obligations.HostMovesTouchNoRegister := by
  intro m s
  cases m <;> rfl

end Sys2Proof.Machine

/-! Reset and boot (70_reset_and_hazards.md): the three steps of boot and the hold until READY = 1 (R172, R173), what a
hardware reset leaves, and the frame that it abandons (R170). -/

namespace Sys2Proof.Machine

/-! ### The steps of boot (R172) -/

section
variable {s : State} (hr : s.rst = false) (hb : s.READY = false)
include hr hb

theorem step_tgen_of_boot (hT : s.TV = false) :
    step s = .next { s with T := generate Config.slice8 s.T, TV := true } := by
  rw [step_of_boot hr hb, bootStep_tgen hT, tgenBody_of_TV_false hT]

theorem step_probe_of_boot (hT : s.TV = true) (hC : s.CAPV = false) :
    step s = .next { s with CAP := s.capIn, CAPV := true } := by
  rw [step_of_boot hr hb, bootStep_probe hT hC, probeBody_of_CAPV_false hC]

theorem step_ready_of_boot (hT : s.TV = true) (hC : s.CAPV = true) : step s = .next { s with READY := true } := by
  rw [step_of_boot hr hb, bootStep_ready hT hC]

end

/-- Settles O12: the steps of TGEN, of PROBE and of READY, each in the state that the one before leaves. -/
theorem bootSequence : Obligations.BootSequence := by
  intro s hr hb hT hC hwf
  have hbuilt := generate_built hwf Config.slice8
  have htgen := step_tgen_of_boot hr hb hT
  -- the table stays a variable, or unification would evaluate it
  generalize generate Config.slice8 s.T = T at hbuilt htgen
  exact ⟨T, hbuilt, htgen, step_probe_of_boot hr hb rfl hC, step_ready_of_boot hr hb rfl rfl⟩

/-! ### The hold until READY = 1 (R173) -/

/-- A step of boot writes the five registers of boot and nothing else. -/
theorem bootStep_frame (s : State) :
    s.bootStep = { s with
      T := s.bootStep.T, TV := s.bootStep.TV, CAP := s.bootStep.CAP, CAPV := s.bootStep.CAPV,
      READY := s.bootStep.READY } := by
  obtain ⟨-, he⟩ | ⟨-, -, he⟩ | ⟨-, -, he⟩ := bootStep_cases s <;> rw [he] <;> rfl

/-- What is left of boot after TGEN leads where the whole of boot does. -/
theorem bootAll_tgenBody (s : State) : s.tgenBody.bootAll = s.bootAll := by
  rw [State.bootAll, tgenBody_of_TV_true (State.tgenBody_TV s), State.bootAll]

theorem bootAll_probeBody {s : State} (hT : s.TV = true) : s.probeBody.bootAll = s.bootAll := by
  have hT' : s.probeBody.TV = true := hT
  rw [State.bootAll, tgenBody_of_TV_true hT', probeBody_of_CAPV_true (State.probeBody_CAPV s), State.bootAll,
    tgenBody_of_TV_true hT]

theorem run_boot_of_TV_CAPV {s : State} (hr : s.rst = false) (hb : s.READY = false) (hT : s.TV = true)
    (hC : s.CAPV = true) : core.run 1 s = .next s.bootAll := by
  rw [run_one (step_ready_of_boot hr hb hT hC), State.bootAll, tgenBody_of_TV_true hT,
    probeBody_of_CAPV_true hC]

theorem run_boot_of_TV {s : State} (hr : s.rst = false) (hb : s.READY = false) (hT : s.TV = true) :
    ∃ n ≤ 2, core.run n s = .next s.bootAll := by
  cases hC : s.CAPV with
  | true => exact ⟨1, by decide, run_boot_of_TV_CAPV hr hb hT hC⟩
  | false =>
    refine ⟨2, le_rfl, ?_⟩
    rw [run_of_step 1 (step_of_boot hr hb), bootStep_probe hT hC,
      run_boot_of_TV_CAPV (s := s.probeBody) hr hb hT rfl, bootAll_probeBody hT]

/-- From wherever boot stands, at most its three steps are left. -/
theorem run_boot_of_held {s : State} (hr : s.rst = false) (hb : s.READY = false) :
    ∃ n ≤ 3, core.run n s = .next s.bootAll := by
  cases hT : s.TV with
  | true =>
    obtain ⟨n, hn, h⟩ := run_boot_of_TV hr hb hT
    exact ⟨n, Nat.le_succ_of_le hn, h⟩
  | false =>
    obtain ⟨n, hn, h⟩ := run_boot_of_TV (s := s.tgenBody) hr hb rfl
    refine ⟨n + 1, Nat.succ_le_succ hn, ?_⟩
    rw [run_of_step n (step_of_boot hr hb), bootStep_tgen hT, h, bootAll_tgenBody]

/-- Settles O13: a held step is one of boot, which touches no port, and boot leads to READY = 1. -/
theorem holdUntilReady : Obligations.HoldUntilReady := by
  intro s hr hb
  refine ⟨fun t h => ?_, ?_⟩
  · rw [step_of_boot hr hb] at h
    cases h
    rw [bootStep_frame]
    exact ⟨rfl, rfl, rfl, rfl, rfl, rfl⟩
  · obtain ⟨n, hn, h⟩ := run_boot_of_held hr hb
    exact ⟨n, hn, s.bootAll, h, rfl, rfl, rfl, rfl, rfl, rfl, rfl⟩

/-! ### Hardware reset (R170) -/

/-- Settles O14: the fields of the reset state, and what every step without `rst` keeps. -/
theorem hardwareReset : Obligations.HardwareReset := by
  refine ⟨fun s t hr h => ?_, fun s t hr h => ?_⟩
  · rw [step_of_rst hr] at h
    cases h
    exact ⟨rfl, rfl, rfl, rfl, rfl, rfl, rfl, rfl, rfl, rfl⟩
  · have hk := kept_step hr h
    exact ⟨hk.ill, fun hT => (hk.table hT).1, fun hC => (hk.cap hC).1⟩

/-- A frame whose command word is there, and which is not there in full, is in progress. -/
theorem inProgress_of_unsupplied {s : State} {cw : Word} {rest : List Word} (hb : s.READY = true)
    (hc : s.cmdPort = cw :: rest) (hs : s.supplied (frameExtent cw) = false) : s.inProgress = true := by
  rw [State.inProgress, headExtent_of_cons hc, hs, hb, hc]
  rfl

/-- A reset abandons the frame in progress: its command word and the payload bytes that it claims leave the ports. -/
theorem abandonFrame_of_unsupplied {s : State} {cw : Word} {rest : List Word} (hb : s.READY = true)
    (hc : s.cmdPort = cw :: rest) (hs : s.supplied (frameExtent cw) = false) :
    s.abandonFrame = { s with cmdPort := rest, dataPort := s.dataPort.drop (frameExtent cw).bytes } := by
  rw [State.abandonFrame, inProgress_of_unsupplied hb hc hs, if_pos rfl, if_pos rfl, headExtent_of_cons hc, hc,
    List.drop_one, List.tail_cons]

/-- The step under `rst` in the middle of a frame, of whatever opcode. -/
theorem step_abandons {s : State} {cw : Word} {rest : List Word} (hr : s.rst = true) (hb : s.READY = true)
    (hc : s.cmdPort = cw :: rest) (hs : s.supplied (frameExtent cw) = false) :
    ∃ t, step s = .next t ∧ t.cmdPort = rest ∧ t.dataPort = s.dataPort.drop (frameExtent cw).bytes ∧
      t.respPort = s.respPort ∧ t.READY = false := by
  refine ⟨s.hardwareReset, step_of_rst hr, ?_, ?_, rfl, rfl⟩
  · rw [State.hardwareReset_cmdPort, abandonFrame_of_unsupplied hb hc hs]
  · rw [State.hardwareReset_dataPort, abandonFrame_of_unsupplied hb hc hs]

/-- Settles O15: an FL word claims more bytes than have come, so dropping them empties the data port; an OPC 0x17 word
claims a second word and no bytes. -/
theorem resetAbandonsFrame : Obligations.ResetAbandonsFrame := by
  refine ⟨fun s cw rest hr hb hc ho hl => ?_, fun s cw hr hb hc ho => ?_⟩
  · have hx := frameExtent_payload ho
    have hs : s.supplied (frameExtent cw) = false := by
      rw [Bool.eq_false_iff, ne_eq, supplied_iff, hx]
      exact fun h => Nat.not_le.mpr hl h.2
    have hdrop : s.dataPort.drop (frameExtent cw).bytes = [] := by
      rw [hx]
      exact List.drop_of_length_le hl.le
    exact hdrop ▸ step_abandons hr hb hc hs
  · have hx := frameExtent_operand ho
    have hs : s.supplied (frameExtent cw) = false := by
      rw [Bool.eq_false_iff, ne_eq, supplied_iff, hx, hc]
      exact fun h => Nat.not_succ_le_self 1 h.1
    have hdrop : s.dataPort.drop (frameExtent cw).bytes = s.dataPort := by
      rw [hx, extent_operand_bytes, List.drop_zero]
    exact hdrop ▸ step_abandons hr hb hc hs

end Sys2Proof.Machine
